-- ==== Sys2Proof/Word.lean ====
section
/-! DEFINITION. The words of the block: their widths, and the level of a pin. Every word the spec gives bit
positions is a bit vector of exactly that width (`spec/30_encoding.md` R81); counts and thresholds that no rule
shifts or masks are natural numbers. -/

namespace Sys2Proof

/-- MRES, a measurement result (R70): bit 31 `TO`, bits 30 to 0 `DUR`. -/
abbrev MresWord := BitVec 32

/-- MREQ, a measurement request (R71): bit 31 `LVL`, bit 30 `PZ`, bits 29 to 0 `TMO`. -/
abbrev MreqWord := BitVec 32

/-- SEL, the step selector (R74): `ST CLS PRE EQ IDX`, twelve bits. -/
abbrev SelWord := BitVec 12

/-- CTRL, a control command of the host (R77), three bits. -/
abbrev CtrlWord := BitVec 3

/-- REC, the record word (R78), thirty-two bits. -/
abbrev RecWord := BitVec 32

/-- A count of the platform's clock (R31), sixty-four bits. -/
abbrev Clock := BitVec 64

/-- The level of the pin, as `PinRead` answers it (R16): LOW is 0, HIGH is 1. -/
inductive Level where
  | low
  | high
deriving DecidableEq, Repr

end Sys2Proof
end

