-- ==== Sys2Proof/Syntax.lean ====
section
/-! DEFINITION. The operations of the block: one constructor per row of `spec/opcode_table.json` (R79). An
operation selected by SEL carries the fields of its selector word besides `ST`, which its row fixes, so that no
bit of the word is lost (R74, R76). MEASURE carries the three fields of its request word (R71). -/

namespace Sys2Proof

/-- The fields of a step selector besides `ST` (R74). `cls` keeps its two bits: the code `0b11`, which Classify
never produces, can stand in a word (R72, R80). -/
structure SelFields where
  /-- `CLS`, bits 9 and 8: the class of the step's measurement result. -/
  cls : BitVec 2
  /-- `PRE`, bit 7: the result lies in the preamble window. -/
  pre : Bool
  /-- `EQ`, bit 6: the symbol's bit equals `prev`. -/
  eq : Bool
  /-- `IDX`, bits 5 to 0: the symbol index `i`. -/
  idx : BitVec 6
deriving DecidableEq, Repr

/-- The operations (R79). -/
inductive Instr where
  /-- IDLE_WAIT, R141. -/
  | idleWait (f : SelFields)
  /-- HALTED, R145. -/
  | halted (f : SelFields)
  /-- SEEK_MISS, R146. -/
  | seekMiss (f : SelFields)
  /-- SEEK_HIT, R147. -/
  | seekHit (f : SelFields)
  /-- FRM_NODATA, R148. -/
  | frmNodata (f : SelFields)
  /-- FRM_ABORT, R149. -/
  | frmAbort (f : SelFields)
  /-- FRM_EVEN, R150. -/
  | frmEven (f : SelFields)
  /-- FRM_VIOL, R151. -/
  | frmViol (f : SelFields)
  /-- FRM_SENDER, R152. -/
  | frmSender (f : SelFields)
  /-- FRM_GROUP, R153. -/
  | frmGroup (f : SelFields)
  /-- FRM_ON, R154. -/
  | frmOn (f : SelFields)
  /-- FRM_RCPT, R155. -/
  | frmRcpt (f : SelFields)
  /-- FRM_LAST, R156. -/
  | frmLast (f : SelFields)
  /-- START, R142. -/
  | start
  /-- FAIL_PIN, R143. -/
  | failPin
  /-- FAIL_INIT, R144. -/
  | failInit
  /-- MEASURE, R100: `LVL`, `PZ` and `TMO` of the request word. -/
  | measure (lvl : Level) (pz : Bool) (tmo : BitVec 30)
  /-- RESET, R240. -/
  | reset
deriving DecidableEq, Repr

end Sys2Proof
end

