-- ==== Sys2Proof/WellFormed.lean ====
section
/-! DEFINITION. Which terms of `Instr` stand for a selector word of their own row: the conditions of R79's
patterns, with the cases its priorities give to another row taken out (R75). Written from the rules of
`spec/42_frame_fsm.md`, not from the decoder. -/

namespace Sys2Proof

/-- An Invalid class: bit 1 of its code (R72). -/
def SelFields.invalid (f : SelFields) : Bool := f.cls.getLsbD 1

/-- An odd symbol index: the second symbol of a pair (R157). -/
def SelFields.odd (f : SelFields) : Bool := f.idx.getLsbD 0

/-- The second symbol of a pair, valid and different from the first: what every fold row asks for (R152 to R156). -/
def SelFields.folds (f : SelFields) : Bool := !f.invalid && !f.eq && f.odd

/-- The operation's own fields are those its row and the priorities give it. -/
def Instr.wellFormed : Instr → Bool
  | .idleWait _ => true
  | .halted _ => true
  | .seekMiss f => !f.pre
  | .seekHit f => f.pre
  | .frmNodata f => f.invalid && f.idx == 0
  | .frmAbort f => f.invalid && f.idx != 0
  | .frmEven f => !f.invalid && !f.odd
  | .frmViol f => !f.invalid && f.eq && f.odd
  | .frmSender f => f.folds && decide (f.idx.toNat ≤ 51)
  | .frmGroup f => f.folds && f.idx == 53
  | .frmOn f => f.folds && f.idx == 55
  | .frmRcpt f => f.folds && (f.idx == 57 || f.idx == 59 || f.idx == 61)
  | .frmLast f => f.folds && f.idx == 63
  | .start => true
  | .failPin => true
  | .failInit => true
  | .measure _ _ _ => true
  | .reset => true

end Sys2Proof
end

