-- ==== Sys2Proof/Decode.lean ====
section
/-! DEFINITION. The decoder and the encoder of the four words that select an operation: SEL, CTRL, MREQ and RST
(`spec/30_encoding.md` R71, R74, R75, R77, R79, `spec/70_reset_and_hazards.md` R240). Each format is its own
input of the block (R81), so a word is decoded together with the format it arrives in. Decoding is total: a
word is an operation, or is rejected by name. -/

namespace Sys2Proof

/-- The formats of the operation map (R79, R81). -/
inductive Format where
  /-- The step selector, 12 bits. -/
  | sel
  /-- The control command, 3 bits. -/
  | ctrl
  /-- The measurement request, 32 bits. -/
  | mreq
  /-- The reset input, 1 bit. -/
  | rst
deriving DecidableEq, Repr

/-- The fixed width of a format (R81; the reset input is one bit, R79). -/
def Format.width : Format → Nat
  | .sel => 12
  | .ctrl => 3
  | .mreq => 32
  | .rst => 1

/-- Why a word is no operation. -/
inductive Reject where
  /-- The word has a 1 above the width of its format. -/
  | tooWide
  /-- CTRL `0b000`: no command, no step (R77). -/
  | noCommand
  /-- CTRL `0b1xx`: reserved (R77, R80). -/
  | reservedCommand
  /-- The reset input is not asserted (R79). -/
  | resetNotAsserted
  /-- No row of the table matches a step selector; R75 says that this never happens. -/
  | noRow
deriving DecidableEq, Repr

/-- `LVL` (R71): LOW is 0, HIGH is 1. -/
def Level.ofBit (b : Bool) : Level := if b then .high else .low

/-- The bit of a level (R16). -/
def Level.bit : Level → Bool
  | .low => false
  | .high => true

/-- The four fields of a step selector below `ST` (R74). -/
def SelFields.ofWord (w : SelWord) : SelFields :=
  { cls := w.extractLsb' 8 2, pre := w.getLsbD 7, eq := w.getLsbD 6, idx := w.extractLsb' 0 6 }

/-- The step selector `ST ++ CLS ++ PRE ++ EQ ++ IDX` (R74). -/
def SelFields.toWord (st : BitVec 2) (f : SelFields) : SelWord :=
  st ++ f.cls ++ BitVec.ofBool f.pre ++ BitVec.ofBool f.eq ++ f.idx

/-- One SEL row of R79: a word matches when `(SEL & mask) == match` (R75). -/
structure SelRow where
  /-- The bits a word must have under the mask (the table's `match`). -/
  bits : SelWord
  /-- The bits the row looks at. -/
  mask : SelWord
  /-- The smaller wins (R75). -/
  priority : Nat
  /-- The operation the row selects. -/
  op : SelFields → Instr

/-- The SEL rows of R79, in the table's order. -/
def selTable : List SelRow := [
  { bits := 0xC00, mask := 0xC00, priority := 0, op := .idleWait },
  { bits := 0x800, mask := 0xC00, priority := 0, op := .halted },
  { bits := 0x000, mask := 0xC80, priority := 0, op := .seekMiss },
  { bits := 0x080, mask := 0xC80, priority := 0, op := .seekHit },
  { bits := 0x600, mask := 0xE3F, priority := 0, op := .frmNodata },
  { bits := 0x600, mask := 0xE00, priority := 1, op := .frmAbort },
  { bits := 0x400, mask := 0xE01, priority := 0, op := .frmEven },
  { bits := 0x441, mask := 0xE41, priority := 0, op := .frmViol },
  { bits := 0x401, mask := 0xE41, priority := 2, op := .frmSender },
  { bits := 0x435, mask := 0xE7F, priority := 0, op := .frmGroup },
  { bits := 0x437, mask := 0xE7F, priority := 0, op := .frmOn },
  { bits := 0x439, mask := 0xE79, priority := 1, op := .frmRcpt },
  { bits := 0x43F, mask := 0xE7F, priority := 0, op := .frmLast }]

/-- A row matches a word (R75). -/
def SelRow.hits (r : SelRow) (w : SelWord) : Bool := w &&& r.mask == r.bits

/-- Of the rows that match, the one with the smallest priority (R75). -/
def pickRow (w : SelWord) : List SelRow → Option SelRow
  | [] => none
  | r :: rows =>
    if r.hits w then
      match pickRow w rows with
      | none => some r
      | some best => if r.priority ≤ best.priority then some r else some best
    else pickRow w rows

/-- The operation a step selector selects (R75). -/
def decodeSel (w : SelWord) : Except Reject Instr :=
  match pickRow w selTable with
  | some r => .ok (r.op (SelFields.ofWord w))
  | none => .error .noRow

/-- The command a CTRL word gives (R77). -/
def decodeCtrl (c : CtrlWord) : Except Reject Instr :=
  if c = 0b000 then .error .noCommand
  else if c = 0b001 then .ok .start
  else if c = 0b010 then .ok .failPin
  else if c = 0b011 then .ok .failInit
  else .error .reservedCommand

/-- `LVL`, `PZ` and `TMO` of a request word (R71). -/
def mreqLevel (w : MreqWord) : Level := Level.ofBit (w.getLsbD 31)
@[inherit_doc mreqLevel] def mreqPause (w : MreqWord) : Bool := w.getLsbD 30
@[inherit_doc mreqLevel] def mreqTimeout (w : MreqWord) : BitVec 30 := w.extractLsb' 0 30

/-- Every request word is a MEASURE (R71, R79). -/
def decodeMreq (w : MreqWord) : Instr := .measure (mreqLevel w) (mreqPause w) (mreqTimeout w)

/-- The reset input (R79, R240). -/
def decodeRst (b : BitVec 1) : Except Reject Instr :=
  if b = 1 then .ok .reset else .error .resetNotAsserted

/-- The decoder: what operation a word that arrives in a format selects. -/
def decode (fmt : Format) (w : BitVec 32) : Except Reject Instr :=
  if 2 ^ fmt.width ≤ w.toNat then .error .tooWide
  else
    match fmt with
    | .sel => decodeSel (w.setWidth 12)
    | .ctrl => decodeCtrl (w.setWidth 3)
    | .mreq => .ok (decodeMreq w)
    | .rst => decodeRst (w.setWidth 1)

/-- The request word of a level, a pause bit and a timeout (R71). -/
def encodeMreq (lvl : Level) (pz : Bool) (tmo : BitVec 30) : MreqWord :=
  BitVec.ofBool lvl.bit ++ BitVec.ofBool pz ++ tmo

/-- A step selector as the word of its format. -/
def encodeSel (st : BitVec 2) (f : SelFields) : Format × BitVec 32 := (.sel, (f.toWord st).setWidth 32)

/-- The encoder: the format and the word of a well-formed operation, from the patterns of R79 and the field
layouts of R71, R74 and R77. -/
def encode : Instr → Format × BitVec 32
  | .idleWait f => encodeSel 0b11 f
  | .halted f => encodeSel 0b10 f
  | .seekMiss f => encodeSel 0b00 f
  | .seekHit f => encodeSel 0b00 f
  | .frmNodata f => encodeSel 0b01 f
  | .frmAbort f => encodeSel 0b01 f
  | .frmEven f => encodeSel 0b01 f
  | .frmViol f => encodeSel 0b01 f
  | .frmSender f => encodeSel 0b01 f
  | .frmGroup f => encodeSel 0b01 f
  | .frmOn f => encodeSel 0b01 f
  | .frmRcpt f => encodeSel 0b01 f
  | .frmLast f => encodeSel 0b01 f
  | .start => (.ctrl, 0b001)
  | .failPin => (.ctrl, 0b010)
  | .failInit => (.ctrl, 0b011)
  | .measure lvl pz tmo => (.mreq, encodeMreq lvl pz tmo)
  | .reset => (.rst, 0b1)

/-- The format of a table row that has `nbits` bits. DESIGN CHOICE (log 13): the table gives no byte layout; a
row of one byte is read as a control command, and a row of one bit as the reset input, so the reset input's word
padded to a byte reads as START, which has the same bits. -/
def Format.ofBits (nbits : Nat) : Option Format :=
  if nbits ≤ 1 then some .rst
  else if nbits ≤ 8 then some .ctrl
  else if nbits ≤ 16 then some .sel
  else if nbits ≤ 32 then some .mreq
  else none

/-- What the decoder reads from a word numbered as `spec/opcode_table.json` numbers its bits. -/
def decodeTableWord (nbits w : Nat) : Option Instr :=
  match Format.ofBits nbits with
  | none => none
  | some fmt =>
    if 2 ^ 32 ≤ w then none
    else
      match decode fmt (BitVec.ofNat 32 w) with
      | .ok i => some i
      | .error _ => none

end Sys2Proof
end

