-- ==== Sys2Proof/Config.lean ====
section
/-! DEFINITION. What is fixed for a run of the block (`spec/00_scope.md` R6 to R14, `spec/10_state.md` R34), and
the values the spec leaves open. A parameter that is open, or whose literal is unaudited, is a field of
`Config`, which State holds and no operation writes; so a claim holds for every value of it. -/

namespace Sys2Proof

/-- The configuration of the block. Times are in microseconds; one tick is one microsecond (R14). The defaults
are the source's values, where it gives any (R6, R7, I1, I2, I14). -/
structure Config where
  /-- `T_SHORT_LO`, the exclusive lower bound of a Short symbol (R6). -/
  tShortLo : Nat := 400
  /-- `T_SHORT_HI`, the exclusive upper bound of a Short symbol (R6). -/
  tShortHi : Nat := 600
  /-- `T_LONG_LO`, the exclusive lower bound of a Long symbol (R6). -/
  tLongLo : Nat := 1400
  /-- `T_LONG_HI`, the exclusive upper bound of a Long symbol (R6). -/
  tLongHi : Nat := 1800
  /-- `T_PRE_LO`, the exclusive lower bound of the preamble window (R6). -/
  tPreLo : Nat := 2900
  /-- `T_PRE_HI`, the exclusive upper bound of the preamble window (R6). -/
  tPreHi : Nat := 3230
  /-- `MEASURE_TIMEOUT_US` (R7), as wide as the `TMO` field of a request (R71). -/
  measureTimeoutUs : BitVec 30 := 1000000
  /-- `PAUSE_US` (R11): OPEN. -/
  pauseUs : Nat
  /-- `CONTINUOUS` (R12): OPEN, default false (I14). -/
  continuous : Bool := false
  /-- `PIN_ID` (R13): OPEN. It names the pin whose levels the script gives; no rule depends on its value. -/
  pinId : Int
  /-- `REC_BUS_MAP` (R53): OPEN. It names the platform's mapping of the record registers; no rule of the block
  depends on it. -/
  recBusMap : Nat
deriving DecidableEq, Repr

/-- `MEASURE_LEVEL` (R8): every measurement the DU requests has the target level LOW. -/
def Config.measureLevel : Level := .low

/-- `FRAME_SYMBOLS` (R9). -/
def Config.frameSymbols : Nat := 64

/-- DESIGN CHOICE (log 11): the pause of the configuration that `State.reset` stands for. The spec leaves it
OPEN, so it has no body. -/
opaque Config.openPauseUs : Nat

/-- DESIGN CHOICE (log 11): the pin of the configuration that `State.reset` stands for; OPEN, no body. -/
opaque Config.openPinId : Int

/-- DESIGN CHOICE (log 11): the record mapping of the configuration that `State.reset` stands for; OPEN, no body. -/
opaque Config.openRecBusMap : Nat

/-- DESIGN CHOICE (log 10): the count of the platform's clock where `State.reset` begins. The spec says `any
value` (I4), so it has no body. -/
opaque Config.openClockStart : Clock

/-- DESIGN CHOICE (log 2): the free results of the stream level. Where the script gives no further result, the
measurement numbered `n` draws `freeResult n`, of which nothing is known: any Timeout or any duration (R101). -/
opaque Config.freeResult : Nat → MresWord

/-- The configuration of `State.reset`: the source's thresholds and timeout, the single-shot default, and the
open parameters as free values. -/
def Config.atReset : Config :=
  { pauseUs := Config.openPauseUs, pinId := Config.openPinId, recBusMap := Config.openRecBusMap }

end Sys2Proof
end

