-- ==== Sys2Proof/Machine/State.lean ====
section
/-! DEFINITION. The state of the block (`spec/10_state.md` R22 to R39) with its configuration, the platform's
clock, the measurement unit's own state and the script of its environment, all plain data; the state right after
reset (`spec/70_reset_and_hazards.md` R240); and the reasons a step can stop. -/

namespace Sys2Proof.Machine

/-- The state register's values (R23). -/
inductive St where
  | seek
  | frame
  | halt
  | idle
deriving DecidableEq, Repr

/-- The codes of `st` (R23, R73). -/
abbrev St.code : St → BitVec 2
  | .seek => 0b00
  | .frame => 0b01
  | .halt => 0b10
  | .idle => 0b11

/-- `setup_err` (R29, R205). The reserved code `0b11` is never written (R80) and is unrepresentable (I8). -/
inductive SetupErr where
  | none
  | pinUnset
  | gpioInitFail
deriving DecidableEq, Repr

/-- The codes of `setup_err` (R205). -/
abbrev SetupErr.code : SetupErr → BitVec 2
  | .none => 0b00
  | .pinUnset => 0b01
  | .gpioInitFail => 0b10

/-- `rec_kind` (R181). -/
inductive RecKind where
  | none
  | complete
  | partialRec
  | nodata
deriving DecidableEq, Repr

/-- The codes of `rec_kind` (R78, R181). -/
abbrev RecKind.code : RecKind → BitVec 2
  | .none => 0b00
  | .complete => 0b01
  | .partialRec => 0b10
  | .nodata => 0b11

/-- `rec_cause` (R201). The reserved codes 4 to 7 are never written (R80) and are unrepresentable (I8). -/
inductive Cause where
  | none
  | pulseTimeout
  | symbolOutOfRange
  | manchesterViolation
deriving DecidableEq, Repr

/-- The codes of `rec_cause` (R201). -/
abbrev Cause.code : Cause → BitVec 3
  | .none => 0
  | .pulseTimeout => 1
  | .symbolOutOfRange => 2
  | .manchesterViolation => 3

/-- The symbol class of a measurement result (R72, R120). The code `0b11` is unrepresentable (I6). -/
inductive SymClass where
  | short
  | long
  | invalid
deriving DecidableEq, Repr

/-- The codes of `cls` (R72). -/
abbrev SymClass.code : SymClass → BitVec 2
  | .short => 0b00
  | .long => 0b01
  | .invalid => 0b10

/-- `mu_phase` (R32). -/
inductive MuPhase where
  | idle
  | pause
  | phase1
  | phase2
deriving DecidableEq, Repr

/-- One item of a script at stream level (R82, R101). -/
inductive StreamItem where
  /-- A control command (R77), presented for one step. -/
  | ctrl (c : CtrlWord)
  /-- The reset input, asserted for one step. -/
  | reset
  /-- One measurement result, an MRES word: `PULSE d` or `TIMEOUT`. -/
  | result (r : MresWord)
deriving DecidableEq, Repr

/-- One item of a script at pin level (R82, R101), in the order of time. -/
inductive PinItem where
  /-- A control command (R77), presented at this tick. -/
  | ctrl (c : CtrlWord)
  /-- The reset input, asserted at this tick. -/
  | reset
  /-- The pin holds a level for `n` ticks: `HIGH n`, `LOW n`. -/
  | hold (l : Level) (n : Nat)
deriving DecidableEq, Repr

/-- What the environment will do from the current tick on, at one of the two levels of R101. DESIGN CHOICE
(log 1): the inputs are a finite script, since State is plain data. Where a stream script ends, the results are
free draws (log 2); where a pin script ends, the pin keeps the level `tail` (log 3). -/
inductive Feed where
  | stream (items : List StreamItem)
  | pin (items : List PinItem) (tail : Level)
deriving DecidableEq, Repr

/-- A host input that takes effect at the current tick: the reset input, or a command other than NOP. -/
inductive Event where
  | reset
  | command (c : CtrlWord)
deriving DecidableEq, Repr

/-- The state of the block and of what it is connected to. -/
structure State where
  /-- The configuration (R34); no operation writes it. -/
  cfg : Config
  /-- `st`: the frame state machine's state (R23). -/
  st : St
  /-- `i`: the symbol index (R24). -/
  i : BitVec 6
  /-- `prev`: the previous-bit register (R25). -/
  prev : Bool
  /-- `sender`, an accumulator (R26). -/
  sender : BitVec 26
  /-- `group`, an accumulator (R26). -/
  group : Bool
  /-- `on`, an accumulator (R26). -/
  onBit : Bool
  /-- `recipient`, an accumulator (R26). -/
  recipient : BitVec 4
  /-- `pause_pending` (R28). -/
  pausePending : Bool
  /-- `setup_err` (R29). -/
  setupErr : SetupErr
  /-- `rec_valid` (R30). -/
  recValid : Bool
  /-- `rec_kind` (R30, R181). -/
  recKind : RecKind
  /-- `rec_word` (R30, R182). -/
  recWord : RecWord
  /-- `rec_cause` (R30, R201). -/
  recCause : Cause
  /-- `now`: the platform's clock (R31). -/
  now : Clock
  /-- `mu_phase` (R32). -/
  muPhase : MuPhase
  /-- `mu_t0`: the start timestamp of the measurement (R32). -/
  muT0 : Clock
  /-- `mu_target`: its target level (R32). -/
  muTarget : Level
  /-- `mu_timeout`: its timeout (R32). -/
  muTimeout : BitVec 30
  /-- The MODEL's own: the result word the MU handed the DU, the operand `r` of the step (R19, R70). -/
  mres : MresWord
  /-- The MODEL's own: a request word put to the MU alone (R71, R100; log 8). -/
  mreq : Option MreqWord
  /-- The MODEL's own: the script of the environment (R82, R101; log 1). -/
  feed : Feed
  /-- The MODEL's own: how many free results were drawn (R101; log 2). -/
  draws : Nat
deriving DecidableEq, Repr

/-- The reasons a step can stop with a fault: none. The block's errors are events it handles itself (FrameAbort,
SetupFailure, PulseTimeout), and R200 says that no other error exists; there is no access that could fail
(R50, R54). Nobody raises one. -/
inductive Fault where
deriving DecidableEq, Repr

/-- The reasons the model has no step. -/
inductive Refusal where
  /-- Raised by an arm of `exec` whose instruction has no meaning yet. Safe: the run stops. -/
  | notModelled (mnemonic : String)
  /-- Raised by START, FAIL_PIN and FAIL_INIT outside IDLE or with `setup_err` not 0, and by a command that comes
  while a measurement runs: R77 and R80 say "refused: the model has no step for it". Safe (R80, toward unprovable). -/
  | commandNotAccepted (c : CtrlWord)
  /-- Raised by the step for CTRL `0b1xx`, reserved: R80 says "refused: the model has no step for it". Safe. -/
  | reservedCommand (c : CtrlWord)
  /-- Raised by the step for a selector word that no row matches; R75 says that there is none, so nothing raises
  it. Safe. -/
  | noRow
deriving DecidableEq, Repr

/-- The block right after reset, with a given configuration and clock. R22 and R240 give the registers; the MU
is idle (R38). DESIGN CHOICE (logs 8, 9 and 14): the MU's other fields and the model's own fields begin at zero,
and the environment's script is the empty stream. -/
def State.resetWith (cfg : Config) (now : Clock) : State :=
  { cfg := cfg
    st := .idle
    i := 0
    prev := false
    sender := 0
    group := false
    onBit := false
    recipient := 0
    pausePending := false
    setupErr := .none
    recValid := false
    recKind := .none
    recWord := 0
    recCause := .none
    now := now
    muPhase := .idle
    muT0 := 0
    muTarget := .low
    muTimeout := 0
    mres := 0
    mreq := none
    feed := .stream []
    draws := 0 }

/-- The machine right after reset: every register at the value R22 gives, the clock and the open parameters free
(R31, I4, R11 to R13; logs 10 and 11). -/
def State.reset : State := State.resetWith Config.atReset Config.openClockStart

end Sys2Proof.Machine
end

