-- ==== Sys2Proof/Machine/Flags.lean ====
section
/-! DEFINITION. The three flags of the block, `cls`, `pre` and `eq` (`spec/10_state.md` R27,
`spec/41_classifier.md`), and the step selector they go into (`spec/30_encoding.md` R74). They are computed anew
from every measurement result and never stored. -/

namespace Sys2Proof.Machine

/-- `TO`: the result is a Timeout (R70). -/
def mresTimeout (r : MresWord) : Bool := r.getLsbD 31

/-- `DUR`: the duration of a result that is no Timeout (R70). -/
def mresDuration (r : MresWord) : Nat := (r.extractLsb' 0 31).toNat

/-- Strictly between two bounds: all bounds are exclusive (R120). -/
def within (lo hi d : Nat) : Bool := decide (lo < d) && decide (d < hi)

/-- Classify (R120): a Timeout is Invalid (R123), and Short is tested before Long (R125). -/
def classify (cfg : Config) (r : MresWord) : SymClass :=
  if mresTimeout r then .invalid
  else if within cfg.tShortLo cfg.tShortHi (mresDuration r) then .short
  else if within cfg.tLongLo cfg.tLongHi (mresDuration r) then .long
  else .invalid

/-- PreMatch (R121): a Timeout is out of range. -/
def preMatch (cfg : Config) (r : MresWord) : Bool :=
  !mresTimeout r && within cfg.tPreLo cfg.tPreHi (mresDuration r)

/-- `eq` (R27, R76): `~(cls[0] ^ prev)`. -/
def eqFlag (cls : BitVec 2) (prev : Bool) : Bool := !(cls.getLsbD 0 ^^ prev)

/-- The selector fields of a step that measured `s.mres` (R74). In IDLE and HALT no measurement is made; the
rows of those states mask `CLS`, `PRE` and `EQ` out. -/
def selFields (s : State) : SelFields :=
  let cls := (classify s.cfg s.mres).code
  { cls := cls, pre := preMatch s.cfg s.mres, eq := eqFlag cls s.prev, idx := s.i }

/-- The step selector (R74). -/
def selWord (s : State) : SelWord := (selFields s).toWord s.st.code

end Sys2Proof.Machine
end

