-- ==== Sys2Proof/Machine/Operands.lean ====
section
/-! DEFINITION. The operand forms of the operations (`spec/30_encoding.md` R70, R76, R78, R82;
`spec/42_frame_fsm.md` R148, R152, R155): result words, the bit of a symbol, the folds, the packed record, and
the notation for stimuli. -/

namespace Sys2Proof.Machine

/-- The other level of the pin: what phase 2 of a measurement waits for (R100). -/
def otherLevel : Level → Level
  | .low => .high
  | .high => .low

/-- MRES of a Timeout: `0x80000000`, with `DUR` 0 (R70). -/
def timeoutWord : MresWord := 0x80000000

/-- MRES of a duration of `d` microseconds: `zext_32(d)`, `d` of 31 bits (R70). -/
def durationWord (d : Nat) : MresWord := (BitVec.ofNat 31 d).setWidth 32

/-- The bit of a valid symbol: `cls[0]` (R76, R122). -/
def symbolBit (f : SelFields) : Bool := f.cls.getLsbD 0

/-- The pair number `p = i >> 1` (R76). -/
def pairNumber (i : BitVec 6) : Nat := (i >>> 1).toNat

/-- A fold: `(acc << 1) | zext(prev)`, truncated to the accumulator's width (R152, R155). -/
def foldBit {w : Nat} (acc : BitVec w) (prev : Bool) : BitVec w :=
  (acc <<< 1) ||| (BitVec.ofBool prev).setWidth w

/-- `Pack()`: `sender ++ group ++ on ++ recipient` (R182). -/
def packWord (sender : BitVec 26) (group onBit : Bool) (recipient : BitVec 4) : RecWord :=
  sender ++ BitVec.ofBool group ++ BitVec.ofBool onBit ++ recipient

/-- `Pack()` of the accumulators as they are (R182, R202). -/
def State.pack (s : State) : RecWord := packWord s.sender s.group s.onBit s.recipient

/-- `InvCause(r)` (R148): why an Invalid symbol is invalid (R201). -/
def invCause (r : MresWord) : Cause := if mresTimeout r then .pulseTimeout else .symbolOutOfRange

/-- `PULSE d` of the stimulus notation (R82). -/
def stimPulse (d : Nat) : StreamItem := .result (durationWord d)

/-- `TIMEOUT` (R82). -/
def stimTimeout : StreamItem := .result timeoutWord

/-- `S`, `L` and `P` (R82): a Short of 500, a Long of 1600, a preamble of 3000 microseconds. -/
def stimShort : StreamItem := stimPulse 500
@[inherit_doc stimShort] def stimLong : StreamItem := stimPulse 1600
@[inherit_doc stimShort] def stimPreamble : StreamItem := stimPulse 3000

/-- `B0` and `B1` (R82): the pair that decodes to a bit, first the symbol of that bit. -/
def stimPair (b : Bool) : List StreamItem := if b then [stimLong, stimShort] else [stimShort, stimLong]

/-- The pairs of the `n` most significant bits of a record word, bit 31 first. -/
def stimPairs (w : RecWord) : Nat → List StreamItem
  | 0 => []
  | n + 1 => stimPairs w n ++ stimPair (w.getMsbD n)

/-- `FRAME s, g, o, r` (R82): a preamble, then the 32 pairs of the packed word. -/
def stimFrame (sender : BitVec 26) (group onBit : Bool) (recipient : BitVec 4) : List StreamItem :=
  stimPreamble :: stimPairs (packWord sender group onBit recipient) 32

end Sys2Proof.Machine
end

