-- ==== Sys2Proof/Machine/Ops.lean ====
section
/-! DEFINITION. The shared operations: reading the environment's script, the measurement unit, the emission of a
record, taking an abort, recording a setup failure, the reset, and the defaults of a step
(`spec/40_measurement.md`, `spec/42_frame_fsm.md` R140, `spec/43_record_output.md` R180,
`spec/60_exceptions.md` R202 to R208, `spec/70_reset_and_hazards.md` R240). -/

namespace Sys2Proof.Machine

/-! ### The script of the environment -/

/-- The level of the pin `t` ticks from now, in a pin script read as a waveform alone: `L(t)` of R101. -/
def levelAt (tail : Level) : List PinItem → Nat → Level
  | [], _ => tail
  | .hold l n :: items, t => if t < n then l else levelAt tail items (t - n)
  | .reset :: items, t => levelAt tail items t
  | .ctrl _ :: items, t => levelAt tail items t

/-- `PinRead()` (R16): the level at the current tick. At stream level there is none. -/
def Feed.pinRead : Feed → Option Level
  | .stream _ => none
  | .pin items tail => some (levelAt tail items 0)

/-- The reset input at the current tick of a pin script, behind whatever commands stand at the same tick, and the
script after it: reset has priority over everything (R206). DESIGN CHOICE (log 6): the commands before it are dropped. -/
def pinReset : List PinItem → Option (List PinItem)
  | [] => none
  | .reset :: items => some items
  | .ctrl _ :: items => pinReset items
  | .hold _ n :: items => if n = 0 then pinReset items else none

/-- The host input at the current tick of a pin script, and the script after it: the reset input if it stands at this
tick (R206), else a command, DESIGN CHOICE (log 6) the first of the tick. NOP is no command (R77), and a hold of no
ticks is no time. -/
def takePin : List PinItem → Option (Event × List PinItem)
  | [] => none
  | .reset :: items => some (.reset, items)
  | .ctrl c :: items =>
    if c = 0 then takePin items
    else
      match pinReset items with
      | some rest => some (.reset, rest)
      | none => some (.command c, items)
  | .hold _ n :: items => if n = 0 then takePin items else none

/-- The host input of the current step of a stream script, and the script after it. DESIGN CHOICE (log 6): each item is
presented for a step of its own, as R82 says of RESET, so that no two of them are simultaneous and R206 has nothing to
decide here. -/
def takeStream : List StreamItem → Option (Event × List StreamItem)
  | [] => none
  | .reset :: items => some (.reset, items)
  | .ctrl c :: items => if c = 0 then none else some (.command c, items)
  | .result _ :: _ => none

/-- The host input that the current step finds: the reset input, or a command other than NOP. -/
def Feed.take : Feed → Option (Event × Feed)
  | .stream items => (takeStream items).map fun p => (p.1, .stream p.2)
  | .pin items tail => (takePin items).map fun p => (p.1, .pin p.2 tail)

/-- One tick of a pin script goes by. -/
def tickPin : List PinItem → List PinItem
  | [] => []
  | .hold l n :: items => if n = 0 then tickPin items else if n = 1 then items else .hold l (n - 1) :: items
  | .ctrl c :: items => if c = 0 then tickPin items else .ctrl c :: items
  | .reset :: items => .reset :: items

/-- One waiting step of a stream script goes by: a NOP was presented, or a result nobody measured was not seen
(log 5). -/
def tickStream : List StreamItem → List StreamItem
  | [] => []
  | .result _ :: items => items
  | .ctrl c :: items => if c = 0 then items else .ctrl c :: items
  | .reset :: items => .reset :: items

/-- One waiting step goes by. -/
def Feed.tick : Feed → Feed
  | .stream items => .stream (tickStream items)
  | .pin items tail => .pin (tickPin items) tail

/-- `n` ticks pass on the clock (R31), and the script stands where they end. -/
def State.pass (s : State) (n : Nat) (feed : Feed) : State :=
  { s with now := s.now + BitVec.ofNat 64 n, feed := feed }

/-- The block waits: one tick passes and no register changes (R141, R145; log 4). -/
def waitTick (s : State) : State := s.pass 1 s.feed.tick

/-! ### Reset -/

/-- The reset (R240): every register of R22 to its reset value, any measurement abandoned (the MU idle, R38, and
no request standing), the clock unchanged. The configuration, the script and the count of draws are not the
block's. -/
def resetBlock (s : State) : State :=
  { State.resetWith s.cfg s.now with feed := s.feed, draws := s.draws }

/-! ### The measurement unit -/

/-- How a walk over a pin script ends, after how many ticks, and the script from there on. -/
inductive Walk where
  /-- What the walk waits for holds at this tick. -/
  | reached (n : Nat) (items : List PinItem)
  /-- The deadline is reached first. -/
  | expired (n : Nat) (items : List PinItem)
  /-- The reset input is asserted first. -/
  | reset (n : Nat) (items : List PinItem)
  /-- The host gives a command first. -/
  | command (n : Nat) (c : CtrlWord) (items : List PinItem)
deriving DecidableEq, Repr

/-- The same walk begun `k` ticks earlier. -/
def Walk.after (k : Nat) : Walk → Walk
  | .reached n items => .reached (k + n) items
  | .expired n items => .expired (k + n) items
  | .reset n items => .reset (k + n) items
  | .command n c items => .command (k + n) c items

/-- A walk meets a command other than NOP: it ends there, with the reset input if that stands at the same tick (R206),
else with the command. -/
def stopAtCommand (c : CtrlWord) (items : List PinItem) : Walk :=
  match pinReset items with
  | some rest => .reset 0 rest
  | none => .command 0 c items

/-- Let `n` ticks pass without reading the pin (R106). -/
def walkPause : List PinItem → Nat → Walk
  | [], n => .reached n []
  | .hold l m :: items, n =>
    if n < m then .reached n (.hold l (m - n) :: items) else (walkPause items (n - m)).after m
  | .reset :: items, _ => .reset 0 items
  | .ctrl c :: items, n => if c = 0 then walkPause items n else stopAtCommand c items

/-- Sample the pin once per tick until it reads `want`, for at most `budget` ticks; at each tick the level is
tested before the deadline (R100). The ticks of one hold are walked at once. The reset input of a tick goes before the
level and the deadline (R206); DESIGN CHOICE (log 6): a command of a tick does too. -/
def walkTo (want tail : Level) : List PinItem → Nat → Walk
  | [], budget => if tail = want then .reached 0 [] else .expired budget []
  | .hold l m :: items, budget =>
    if m = 0 then walkTo want tail items budget
    else if l = want then .reached 0 (.hold l m :: items)
    else if budget < m then .expired budget (.hold l (m - budget) :: items)
    else (walkTo want tail items (budget - m)).after m
  | .reset :: items, _ => .reset 0 items
  | .ctrl c :: items, budget => if c = 0 then walkTo want tail items budget else stopAtCommand c items

/-- How a measurement ends. -/
inductive MuEnd where
  /-- The MU returned a result, which stands in `mres`. -/
  | done (s : State)
  /-- The reset input was asserted at this state's tick: the MU returns no result (R240). -/
  | abandoned (s : State)
  /-- The host gave a command while the block measured, where none is accepted (R80). -/
  | refused (c : CtrlWord)
deriving DecidableEq, Repr

/-- The MU takes a request (R32, R100). -/
def muBegin (lvl : Level) (pz : Bool) (tmo : BitVec 30) (s : State) : State :=
  { s with muPhase := if pz then .pause else .phase1, muTarget := lvl, muTimeout := tmo }

/-- The MU returns a result and is idle again (R32). -/
def muReturn (r : MresWord) (s : State) : State := { s with muPhase := .idle, mres := r }

/-- Where a walk ends: at what it waited for the measurement goes on, at the deadline it returns Timeout (R100). -/
def onWalk (tail : Level) (s : State) (w : Walk) (goOn : Nat → List PinItem → State → MuEnd) : MuEnd :=
  match w with
  | .reached n items => goOn n items (s.pass n (.pin items tail))
  | .expired n items => .done (muReturn timeoutWord (s.pass n (.pin items tail)))
  | .reset n items => .abandoned (s.pass n (.pin items tail))
  | .command _ c _ => .refused c

/-- Phase 2 (R100): until the pin leaves the target level, under the deadline both phases share (R103). `a` is
the time phase 1 took, and the result spans both phases (R104). -/
def muPhase2 (tail : Level) (a : Nat) (items : List PinItem) (s : State) : MuEnd :=
  onWalk tail s (walkTo (otherLevel s.muTarget) tail items (s.muTimeout.toNat - a)) fun b _ t =>
    .done (muReturn (durationWord (a + b)) t)

/-- Phase 1 (R100): from the start timestamp, until the pin reads the target level. -/
def muPhase1 (tail : Level) (items : List PinItem) (s : State) : MuEnd :=
  onWalk tail s (walkTo s.muTarget tail items s.muTimeout.toNat) fun a items' t =>
    muPhase2 tail a items' { t with muPhase := .phase2 }

/-- MEASURE at pin level (R100), after the pause where one is asked for (R106). -/
def measurePin (items : List PinItem) (tail : Level) (s : State) : MuEnd :=
  if s.muPhase = .pause then
    onWalk tail s (walkPause items s.cfg.pauseUs) fun _ items' t =>
      muPhase1 tail items' { t with muPhase := .phase1, muT0 := t.now }
  else muPhase1 tail items { s with muT0 := s.now }

/-- What a measurement finds in a stream script. -/
inductive Draw where
  | result (r : MresWord) (items : List StreamItem)
  | free
  | reset (items : List StreamItem)
  | command (c : CtrlWord)
deriving DecidableEq, Repr

/-- The next result of a stream script (R101), unless a host input stands before it. -/
def drawStream : List StreamItem → Draw
  | [] => .free
  | .result r :: items => .result r items
  | .reset :: items => .reset items
  | .ctrl c :: items => if c = 0 then drawStream items else .command c

/-- The ticks a result took to measure (R111, R251): its duration, or the whole timeout. -/
def resultTicks (timeout : BitVec 30) (r : MresWord) : Nat :=
  if mresTimeout r then timeout.toNat else mresDuration r

/-- MEASURE at stream level (R101): the result is a draw. The pause passes before it where one is asked for. -/
def measureStream (items : List StreamItem) (s : State) : MuEnd :=
  let began (rest : List StreamItem) (s : State) : State :=
    let t := s.pass (if s.muPhase = .pause then s.cfg.pauseUs else 0) (.stream rest)
    { t with muT0 := t.now }
  let returned (r : MresWord) (rest : List StreamItem) (s : State) : State :=
    muReturn r ((began rest s).pass (resultTicks s.muTimeout r) (.stream rest))
  match drawStream items with
  | .result r rest => .done (returned r rest s)
  | .free => .done (returned (Config.freeResult s.draws) [] { s with draws := s.draws + 1 })
  | .reset rest => .abandoned { s with feed := .stream rest }
  | .command c => .refused c

/-- MEASURE (R100): the MU measures the next occurrence of a level. -/
def muMeasure (lvl : Level) (pz : Bool) (tmo : BitVec 30) (s : State) : MuEnd :=
  match s.feed with
  | .stream items => measureStream items (muBegin lvl pz tmo s)
  | .pin items tail => measurePin items tail (muBegin lvl pz tmo s)

/-- The request word of the DU (R71, R108): LOW, the timeout of the configuration, the pause where it is pending. -/
def duRequest (s : State) : MreqWord :=
  encodeMreq Config.measureLevel s.pausePending s.cfg.measureTimeoutUs

/-- The measurement of a SEEK or FRAME step: the DU sends its request word, the MU reads its fields (R108, R140). -/
def duMeasure (s : State) : MuEnd :=
  let w := duRequest s
  muMeasure (mreqLevel w) (mreqPause w) (mreqTimeout w) s

/-! ### The decoder unit -/

/-- The defaults of a SEEK or FRAME step, which the operation may write again (R140). -/
def stepDefaults (s : State) : State := { s with pausePending := false, recValid := false }

/-- Emit (R180): the four output registers change together. -/
def emit (kind : RecKind) (cause : Cause) (word : RecWord) (s : State) : State :=
  { s with recKind := kind, recCause := cause, recWord := word, recValid := true }

/-- FrameAbort (R202), the block's trap entry: emit what the accumulators hold, go back to SEEK, with the pause
pending. Nothing is saved to return to: after it the block goes on in SEEK (R208). -/
def frameAbort (kind : RecKind) (cause : Cause) (s : State) : State :=
  { emit kind cause s.pack s with i := 0, st := .seek, pausePending := true }

/-- SetupFailure (R204): the cause is recorded, the block stays in IDLE. -/
def recordSetupFailure (e : SetupErr) (s : State) : State := { s with setupErr := e, recValid := false }

/-- A setup command is accepted only in IDLE with no failure recorded (R77). -/
def acceptsSetup (s : State) : Bool := s.st == .idle && s.setupErr == .none

/-- A valid symbol is consumed: its bit goes to `prev`, and the index advances (R150, R152 to R155). -/
def advance (f : SelFields) (s : State) : State := { s with prev := symbolBit f, i := s.i + 1 }

/-- Why a command given while the block measures is refused: a reserved code, or a command not accepted (R80). -/
def refusalOf (c : CtrlWord) : Refusal :=
  match decodeCtrl c with
  | .error .reservedCommand => .reservedCommand c
  | _ => .commandNotAccepted c

/-! ### Placing one word -/

/-- A result word of the class and the preamble match a selector word asks for, with the thresholds of `cfg`
taken as the source's (log 15). -/
def resultFor (st : St) (f : SelFields) : MresWord :=
  if st = .seek && f.pre then durationWord 3000
  else if f.cls = 0b00 then durationWord 500
  else if f.cls = 0b01 then durationWord 1600
  else if f.pre then durationWord 3000
  else durationWord 900

/-- The state of a code of `ST` (R73). -/
def St.ofCode (c : BitVec 2) : St :=
  if c = 0b00 then .seek else if c = 0b01 then .frame else if c = 0b10 then .halt else .idle

/-- The script without the host inputs at its head. -/
def Feed.quiet : Feed → Feed
  | .stream items => .stream (items.dropWhile fun x => match x with | .result _ => false | _ => true)
  | .pin items tail => .pin (items.dropWhile fun x => match x with | .hold _ n => n == 0 | _ => true) tail

/-- A result put before the script; a pin script is replaced (log 15). -/
def Feed.withResult (r : MresWord) : Feed → Feed
  | .stream items => .stream (.result r :: items)
  | .pin _ _ => .stream [.result r]

/-- A waiting step put before the script. -/
def Feed.withWait : Feed → Feed
  | .stream items => .stream (.ctrl 0 :: items)
  | .pin items tail => .pin (.hold .low 1 :: items) tail

/-- A command put before the script. -/
def Feed.withCommand (c : CtrlWord) : Feed → Feed
  | .stream items => .stream (.ctrl c :: items)
  | .pin items tail => .pin (.ctrl c :: items) tail

/-- The reset input put before the script. -/
def Feed.withReset : Feed → Feed
  | .stream items => .stream (.reset :: items)
  | .pin items tail => .pin (.reset :: items) tail

/-- The state in which the next step forms a given step selector (log 15). -/
def placeSel (w : SelWord) (s : State) : State :=
  let f := SelFields.ofWord w
  let st := St.ofCode (w.extractLsb' 10 2)
  let r := resultFor st f
  let bit := (classify s.cfg r).code.getLsbD 0
  { s with
    st := st, i := f.idx, prev := !(bit ^^ f.eq), mreq := none
    feed := if st = .idle || st = .halt then s.feed.withWait else s.feed.withResult r }

/-- The state in which the next step takes a given word from the input of its format. -/
def placeWord (fmt : Format) (w : BitVec 32) (s : State) : State :=
  match fmt with
  | .sel => placeSel (w.setWidth 12) s
  | .ctrl => { s with feed := s.feed.withCommand (w.setWidth 3) }
  | .mreq => { s with mreq := some w, feed := s.feed.quiet }
  | .rst => { s with feed := s.feed.withReset }

end Sys2Proof.Machine
end

