-- ==== Sys2Proof/Machine/Control.lean ====
section
/-! DEFINITION. The meanings of the waiting operations, the control commands and the reset
(`spec/42_frame_fsm.md` R141 to R145, `spec/70_reset_and_hazards.md` R240). -/

namespace Sys2Proof.Machine

/-- IDLE_WAIT (R141): no measurement, no write. DESIGN CHOICE (log 4): the waiting is one tick of the clock. -/
def execIdleWait (s : State) : Host.Outcome State Fault Refusal := .next (waitTick s)

/-- HALTED (R145): no measurement, no write, until reset. DESIGN CHOICE (log 4): as IDLE_WAIT. -/
def execHalted (s : State) : Host.Outcome State Fault Refusal := .next (waitTick s)

/-- START (R142): `st <- SEEK; pause_pending <- 0; rec_valid <- 0`, where R77 accepts it; else refused (R80). -/
def execStart (s : State) : Host.Outcome State Fault Refusal :=
  if acceptsSetup s then .next { s with st := .seek, pausePending := false, recValid := false }
  else .refused (.commandNotAccepted 0b001)

/-- FAIL_PIN (R143): `setup_err <- 0b01; rec_valid <- 0`, where R77 accepts it; else refused (R80). -/
def execFailPin (s : State) : Host.Outcome State Fault Refusal :=
  if acceptsSetup s then .next (recordSetupFailure .pinUnset s) else .refused (.commandNotAccepted 0b010)

/-- FAIL_INIT (R144): `setup_err <- 0b10; rec_valid <- 0`, where R77 accepts it; else refused (R80). -/
def execFailInit (s : State) : Host.Outcome State Fault Refusal :=
  if acceptsSetup s then .next (recordSetupFailure .gpioInitFail s) else .refused (.commandNotAccepted 0b011)

/-- RESET (R240), in any state. -/
def execReset (s : State) : Host.Outcome State Fault Refusal := .next (resetBlock s)

end Sys2Proof.Machine
end

