-- ==== Sys2Proof/Machine/Frame.lean ====
section
/-! DEFINITION. The meanings of the frame's operations (`spec/42_frame_fsm.md` R148 to R156). The result word `r`
of the step stands in `mres`; the bit of the symbol is read from the selector's `CLS` (R76). -/

namespace Sys2Proof.Machine

/-- FRM_NODATA (R148): an Invalid symbol at index 0. -/
def execFrmNodata (s : State) : Host.Outcome State Fault Refusal :=
  .next (frameAbort .nodata (invCause s.mres) s)

/-- FRM_ABORT (R149): an Invalid symbol at index 1 to 63. -/
def execFrmAbort (s : State) : Host.Outcome State Fault Refusal :=
  .next (frameAbort .partialRec (invCause s.mres) s)

/-- FRM_VIOL (R151): a Manchester violation; the pair is not folded. -/
def execFrmViol (s : State) : Host.Outcome State Fault Refusal :=
  .next (frameAbort .partialRec .manchesterViolation s)

/-- FRM_EVEN (R150): the first symbol of a pair. -/
def execFrmEven (f : SelFields) (s : State) : Host.Outcome State Fault Refusal := .next (advance f s)

/-- FRM_SENDER (R152): fold `prev` into `sender`. -/
def execFrmSender (f : SelFields) (s : State) : Host.Outcome State Fault Refusal :=
  .next { advance f s with sender := foldBit s.sender s.prev }

/-- FRM_GROUP (R153): `group` is written, not ORed. -/
def execFrmGroup (f : SelFields) (s : State) : Host.Outcome State Fault Refusal :=
  .next { advance f s with group := s.prev }

/-- FRM_ON (R154): `on` is written, not ORed. -/
def execFrmOn (f : SelFields) (s : State) : Host.Outcome State Fault Refusal :=
  .next { advance f s with onBit := s.prev }

/-- FRM_RCPT (R155): fold `prev` into `recipient`. -/
def execFrmRcpt (f : SelFields) (s : State) : Host.Outcome State Fault Refusal :=
  .next { advance f s with recipient := foldBit s.recipient s.prev }

/-- FRM_LAST (R156): fold the last pair, emit the complete record, and stop in HALT or, when `CONTINUOUS`, go
back to SEEK with the pause pending. -/
def execFrmLast (f : SelFields) (s : State) : Host.Outcome State Fault Refusal :=
  let rcpt := foldBit s.recipient s.prev
  .next { emit .complete .none (packWord s.sender s.group s.onBit rcpt) s with
    recipient := rcpt
    prev := symbolBit f
    i := 0
    st := if s.cfg.continuous then .seek else .halt
    pausePending := if s.cfg.continuous then true else s.pausePending }

end Sys2Proof.Machine
end

