-- ==== Sys2Proof/Machine/Measurement.lean ====
section
/-! DEFINITION. The meaning of MEASURE (`spec/40_measurement.md` R100 to R108), and the tick loop of R100 word
for word, against which the walk over the script is held. -/

namespace Sys2Proof.Machine

/-- MEASURE (R100). A reset in the middle abandons it (R240); a command in the middle is refused (R80). -/
def execMeasure (lvl : Level) (pz : Bool) (tmo : BitVec 30) (s : State) : Host.Outcome State Fault Refusal :=
  match muMeasure lvl pz tmo s with
  | .done t => .next t
  | .abandoned t => .next (resetBlock t)
  | .refused c => .refused (refusalOf c)

/-- A measurement's outcome as R100's loop gives it: the duration or Timeout, and the tick it returns at. -/
structure Polled where
  duration : Option Nat
  tick : Nat
deriving DecidableEq, Repr

/-- Phase 2 of R100's loop over the waveform `L`, from tick `t`, with `t0` as tick 0. One unit of `fuel` is one
turn of the loop; `timeout + 1` turns are enough. -/
def pollPhase2 (L : Nat → Level) (level : Level) (timeout : Nat) : Nat → Nat → Polled
  | 0, t => { duration := none, tick := t }
  | fuel + 1, t =>
    if L t ≠ level then { duration := some t, tick := t }
    else if timeout ≤ t then { duration := none, tick := t }
    else pollPhase2 L level timeout fuel (t + 1)

/-- Phase 1 of R100's loop. -/
def pollPhase1 (L : Nat → Level) (level : Level) (timeout : Nat) : Nat → Nat → Polled
  | 0, t => { duration := none, tick := t }
  | fuel + 1, t =>
    if L t = level then pollPhase2 L level timeout (timeout + 1) t
    else if timeout ≤ t then { duration := none, tick := t }
    else pollPhase1 L level timeout fuel (t + 1)

/-- R100's loop from the start timestamp on: one pin sample per tick, the level tested before the deadline. -/
def polled (L : Nat → Level) (level : Level) (timeout : Nat) : Polled :=
  pollPhase1 L level timeout (timeout + 1) 0

/-- The MRES word of a loop's outcome (R70). -/
def Polled.word (p : Polled) : MresWord :=
  match p.duration with
  | some d => durationWord d
  | none => timeoutWord

end Sys2Proof.Machine
end

