-- ==== Sys2Proof/Machine/Seek.lean ====
section
/-! DEFINITION. The meanings of the preamble search (`spec/42_frame_fsm.md` R146, R147). -/

namespace Sys2Proof.Machine

/-- SEEK_MISS (R146): nothing beyond the defaults of the step. -/
def execSeekMiss (s : State) : Host.Outcome State Fault Refusal := .next s

/-- SEEK_HIT (R147): enter ReadingFrame with the index, `prev` and the accumulators at 0. -/
def execSeekHit (s : State) : Host.Outcome State Fault Refusal :=
  .next { s with
    st := .frame, i := 0, prev := false
    sender := 0, group := false, onBit := false, recipient := 0 }

end Sys2Proof.Machine
end

