-- ==== Sys2Proof/Machine/Dispatch.lean ====
section
/-! DEFINITION. One arm per operation of `spec/opcode_table.json` (R79). -/

namespace Sys2Proof.Machine

def exec (i : Instr) (s : State) : Host.Outcome State Fault Refusal :=
  match i with
  | .idleWait _ => Sys2Proof.Machine.execIdleWait s
  | .halted _ => Sys2Proof.Machine.execHalted s
  | .seekMiss _ => Sys2Proof.Machine.execSeekMiss s
  | .seekHit _ => Sys2Proof.Machine.execSeekHit s
  | .frmNodata _ => Sys2Proof.Machine.execFrmNodata s
  | .frmAbort _ => Sys2Proof.Machine.execFrmAbort s
  | .frmEven f => Sys2Proof.Machine.execFrmEven f s
  | .frmViol _ => Sys2Proof.Machine.execFrmViol s
  | .frmSender f => Sys2Proof.Machine.execFrmSender f s
  | .frmGroup f => Sys2Proof.Machine.execFrmGroup f s
  | .frmOn f => Sys2Proof.Machine.execFrmOn f s
  | .frmRcpt f => Sys2Proof.Machine.execFrmRcpt f s
  | .frmLast f => Sys2Proof.Machine.execFrmLast f s
  | .start => Sys2Proof.Machine.execStart s
  | .failPin => Sys2Proof.Machine.execFailPin s
  | .failInit => Sys2Proof.Machine.execFailInit s
  | .measure lvl pz tmo => Sys2Proof.Machine.execMeasure lvl pz tmo s
  | .reset => Sys2Proof.Machine.execReset s

end Sys2Proof.Machine
end

