-- ==== Sys2Proof/Machine/Step.lean ====
section
/-! DEFINITION. One step of the block (`spec/42_frame_fsm.md` R140, `spec/60_exceptions.md` R206): the reset input
before everything, then a command, then what the state selects. -/

namespace Sys2Proof.Machine

/-- The operation the step selector selects (R74, R75, R79). -/
def runSelected (s : State) : Host.Outcome State Fault Refusal :=
  match decodeSel (selWord s) with
  | .ok i => exec i s
  | .error _ => .refused .noRow

/-- A SEEK or FRAME step: one measurement and the DU's reaction to its result (R140). A reset in the middle
abandons it (R206, R240). -/
def measuredStep (s : State) : Host.Outcome State Fault Refusal :=
  match duMeasure s with
  | .done t => runSelected (stepDefaults t)
  | .abandoned t => exec .reset t
  | .refused c => .refused (refusalOf c)

/-- A command other than NOP is presented (R77, R140). -/
def commandStep (c : CtrlWord) (s : State) : Host.Outcome State Fault Refusal :=
  match decodeCtrl c with
  | .ok i => exec i s
  | .error _ => .refused (.reservedCommand c)

/-- What the block does where no host input is presented (R140): a request put to the MU alone (log 8), or what
`st` selects. -/
def ownStep (s : State) : Host.Outcome State Fault Refusal :=
  match s.mreq with
  | some w => exec (decodeMreq w) { s with mreq := none }
  | none =>
    match s.st with
    | .idle | .halt => runSelected s
    | .seek | .frame => measuredStep s

/-- One step of the block (R140); reset has priority over everything (R206). -/
def step (s : State) : Host.Outcome State Fault Refusal :=
  match s.feed.take with
  | some (.reset, feed) => exec .reset { s with feed := feed }
  | some (.command c, feed) => commandStep c { s with feed := feed }
  | none => ownStep s

/-- The state in which the next step runs the instruction of a table word (log 15). The program is not fetched:
the word is placed where the step takes it from, the selector's fields in the registers and the script's next
result, a command, a request or the reset input in their own input. -/
def State.withFetchWord (s : State) (nbits w : Nat) : State :=
  match Format.ofBits nbits with
  | some fmt => placeWord fmt (BitVec.ofNat 32 w) s
  | none => s

end Sys2Proof.Machine
end

