-- ==== Sys2Proof/Safety.lean ====
section
/-! DEFINITION. What claims speak of: the end of a run (`spec/70_reset_and_hazards.md` R250), and the invariant of
the reachable states (`spec/10_state.md` R37, `spec/42_frame_fsm.md` R158, `spec/43_record_output.md` R181, R183). -/

namespace Sys2Proof.Machine

/-- The end of a run (R250): HALT, or IDLE with a setup failure recorded. -/
def State.ended (s : State) : Bool := s.st == .halt || (s.st == .idle && s.setupErr != .none)

/-- An item of a pin script that is the reset input or a command other than NOP. -/
def PinItem.isEvent : PinItem → Bool
  | .hold _ _ => false
  | .ctrl c => c != 0
  | .reset => true

/-- A pin script with no host input in it: a waveform alone. -/
def eventFree (items : List PinItem) : Bool := items.all fun x => !x.isEvent

/-- How many ticks the holds of a pin script last. -/
def holdTicks : List PinItem → Nat
  | [] => 0
  | .hold _ n :: items => n + holdTicks items
  | .ctrl _ :: items => holdTicks items
  | .reset :: items => holdTicks items

/-- How long a measurement waits before its start timestamp (R106). -/
def pauseTicks (pz : Bool) (s : State) : Nat := if pz then s.cfg.pauseUs else 0

/-- The accumulators hold no more than the pairs folded so far (R158): `i >> 1` pairs, 26 of them into `sender`,
then `group`, `on`, and the rest into `recipient`. -/
def State.foldsBounded (s : State) : Bool :=
  decide (s.sender.toNat < 2 ^ min (pairNumber s.i) 26) &&
  (!s.group || decide (26 < pairNumber s.i)) &&
  (!s.onBit || decide (27 < pairNumber s.i)) &&
  decide (s.recipient.toNat < 2 ^ (pairNumber s.i - 28))

/-- The record registers fit together (R181, R183, R201): what each kind says of the cause and the word. -/
def State.recordFits (s : State) : Bool :=
  match s.recKind with
  | .none => s.recWord == 0 && s.recCause == .none && !s.recValid
  | .complete => s.recCause == .none
  | .partialRec => s.recCause != .none
  | .nodata => s.recWord == 0 && (s.recCause == .pulseTimeout || s.recCause == .symbolOutOfRange)

/-- The invariant of the reachable states at step boundaries: the index is 0 outside FRAME (R37); in FRAME the
accumulators are bounded by the pairs folded (R158); a setup failure holds the block in IDLE (R204); the MU is
idle (R32); the record registers fit together; the pause is pending only in SEEK, and a valid record is the one
of the step before, in SEEK with the pause pending or in HALT (R28, R30, R145); a block in HALT is single-shot and
shows a complete record (R156, R163). -/
def State.Inv (s : State) : Prop :=
  (s.st ≠ .frame → s.i = 0) ∧
  (s.st = .frame → s.foldsBounded = true) ∧
  (s.setupErr ≠ .none → s.st = .idle) ∧
  s.muPhase = .idle ∧
  s.recordFits = true ∧
  (s.pausePending = true → s.st = .seek) ∧
  (s.recValid = true ↔ s.pausePending = true ∨ s.st = .halt) ∧
  (s.st = .halt → s.recKind = .complete ∧ s.cfg.continuous = false)

end Sys2Proof.Machine
end

