-- ==== Sys2Proof/Certificates/Slice0/Obligations.lean ====
section
/-! DEFINITION. What is claimed of the model, from the numbered rules of `spec/`. Every statement holds in every
state its hypotheses allow, reachable or not; where a value is the model's own choice, the docstring names the log
entry. -/

open Sys2Proof Sys2Proof.Machine

/-! ### Encoding -/

/-- R71, R74, R75, R77, R79: decoding an encoded well-formed operation gives it back, with every field at every
value its row admits. -/
def Obligations.DecodeOfEncode : Prop :=
  ∀ i : Instr, i.wellFormed = true → decode (encode i).1 (encode i).2 = .ok i

/-- R75, R79: a word the decoder accepts is the encoding of what it decodes to, which is well formed: no bit of a
word is dropped. -/
def Obligations.EncodeOfDecode : Prop :=
  ∀ (fmt : Format) (w : BitVec 32) (i : Instr), decode fmt w = .ok i → encode i = (fmt, w) ∧ i.wellFormed = true

/-- R75: every selector word has exactly one matching row of smallest priority, and selects its operation; the two
places where priority decides are the abort at index 0 and the field a pair folds into. -/
def Obligations.SelectorHasOneSmallestRow : Prop :=
  (∀ w : SelWord, ∃ r ∈ selTable, r.hits w = true ∧
      (∀ r' ∈ selTable, r'.hits w = true → r' = r ∨ r.priority < r'.priority) ∧
      decodeSel w = .ok (r.op (SelFields.ofWord w))) ∧
  (∀ f : SelFields, f.invalid = true → f.idx = 0 → decodeSel (f.toWord 0b01) = .ok (.frmNodata f)) ∧
  (∀ f : SelFields, f.folds = true →
      (f.idx = 53 → decodeSel (f.toWord 0b01) = .ok (.frmGroup f)) ∧
      (f.idx = 55 → decodeSel (f.toWord 0b01) = .ok (.frmOn f)) ∧
      (f.idx = 57 ∨ f.idx = 59 ∨ f.idx = 61 → decodeSel (f.toWord 0b01) = .ok (.frmRcpt f)) ∧
      (f.idx = 63 → decodeSel (f.toWord 0b01) = .ok (.frmLast f)))

/-- R79: words written out from the patterns of the table decode to the operation they stand for. -/
def Obligations.TableWordsDecode : Prop :=
  decode .sel 0b110000000000 = .ok (.idleWait ⟨0b00, false, false, 0⟩) ∧
  decode .sel 0b001011000000 = .ok (.seekHit ⟨0b10, true, true, 0⟩) ∧
  decode .sel 0b011001000001 = .ok (.frmAbort ⟨0b10, false, true, 1⟩) ∧
  decode .sel 0b010100110011 = .ok (.frmSender ⟨0b01, false, false, 51⟩) ∧
  decode .ctrl 0b010 = .ok .failPin ∧
  decode .mreq 0x80000064 = .ok (.measure .high false 100) ∧
  decode .rst 0b1 = .ok .reset

/-- R71, R108: the request word of the DU asks for LOW, the configured timeout, and the pause where it is pending;
with the timeout of R7 it is `0x000F4240` or `0x400F4240`. -/
def Obligations.DuRequestWord : Prop :=
  ∀ s : State, mreqLevel (duRequest s) = .low ∧ mreqPause (duRequest s) = s.pausePending ∧
    mreqTimeout (duRequest s) = s.cfg.measureTimeoutUs ∧
    (s.cfg.measureTimeoutUs = 1000000 → duRequest s = if s.pausePending then 0x400F4240 else 0x000F4240)

/-- R78: the layout of the record word, and the codes of its kind and cause. -/
def Obligations.RecordLayout : Prop :=
  (∀ (sender : BitVec 26) (group onBit : Bool) (recipient : BitVec 4),
    (packWord sender group onBit recipient).extractLsb' 6 26 = sender ∧
    (packWord sender group onBit recipient).getLsbD 5 = group ∧
    (packWord sender group onBit recipient).getLsbD 4 = onBit ∧
    (packWord sender group onBit recipient).extractLsb' 0 4 = recipient) ∧
  (∀ s : State, s.pack = packWord s.sender s.group s.onBit s.recipient) ∧
  RecKind.none.code = 0b00 ∧ RecKind.complete.code = 0b01 ∧ RecKind.partialRec.code = 0b10 ∧
  RecKind.nodata.code = 0b11 ∧
  Cause.none.code = 0 ∧ Cause.pulseTimeout.code = 1 ∧ Cause.symbolOutOfRange.code = 2 ∧
  Cause.manchesterViolation.code = 3

/-! ### Comparators -/

/-- R120 to R125: the class and the preamble match of every result word, read as a number (bit 31 is the Timeout
flag, the rest the duration), for every configuration; and with the thresholds of R6 the windows 401..599,
1401..1799 and 2901..3229, which are disjoint. -/
def Obligations.ComparatorWindows : Prop :=
  (∀ (cfg : Config) (r : MresWord),
    (2 ^ 31 ≤ r.toNat → classify cfg r = .invalid ∧ preMatch cfg r = false) ∧
    (r.toNat < 2 ^ 31 →
      (classify cfg r = .short ↔ cfg.tShortLo < r.toNat ∧ r.toNat < cfg.tShortHi) ∧
      (classify cfg r = .long ↔ classify cfg r ≠ .short ∧ cfg.tLongLo < r.toNat ∧ r.toNat < cfg.tLongHi) ∧
      (preMatch cfg r = true ↔ cfg.tPreLo < r.toNat ∧ r.toNat < cfg.tPreHi))) ∧
  (∀ (pauseUs recBusMap : Nat) (continuous : Bool) (pinId : Int) (r : MresWord),
    let cfg : Config := { pauseUs := pauseUs, continuous := continuous, pinId := pinId, recBusMap := recBusMap }
    (classify cfg r = .short ↔ 401 ≤ r.toNat ∧ r.toNat ≤ 599) ∧
    (classify cfg r = .long ↔ 1401 ≤ r.toNat ∧ r.toNat ≤ 1799) ∧
    (preMatch cfg r = true ↔ 2901 ≤ r.toNat ∧ r.toNat ≤ 3229) ∧
    (preMatch cfg r = true → classify cfg r = .invalid))

/-! ### The measurement unit -/

/-- What MEASURE leaves unchanged at pin level: every register of the block, the configuration, the standing
request and the count of draws (R100, R105). -/
def MeasureFrame (lvl : Level) (tmo : BitVec 30) (s t : State) : Prop :=
  t = { s with
    now := t.now, muPhase := .idle, muT0 := t.muT0, muTarget := lvl, muTimeout := tmo, mres := t.mres
    feed := t.feed, draws := t.draws }

/-- R100, R106, R109: on every waveform MEASURE answers a next state, and its result and the tick of its return are
those of R100's tick loop, run over the waveform from the tick the pause ends; the waveform goes on from the tick
of the return, and no register of the block changes. -/
def Obligations.MeasureIsThePollingLoop : Prop :=
  ∀ (lvl : Level) (pz : Bool) (tmo : BitVec 30) (s : State) (items : List PinItem) (tail : Level),
    s.feed = .pin items tail → eventFree items = true →
    let k := pauseTicks pz s
    let p := polled (fun x => levelAt tail items (k + x)) lvl tmo.toNat
    ∃ t, exec (.measure lvl pz tmo) s = .next t ∧
      t.mres = p.word ∧ t.muT0 = s.now + BitVec.ofNat 64 k ∧ t.now = s.now + BitVec.ofNat 64 (k + p.tick) ∧
      (∃ rest, t.feed = .pin rest tail ∧ eventFree rest = true ∧
        ∀ x, levelAt tail rest x = levelAt tail items (k + p.tick + x)) ∧
      t.draws = s.draws ∧ MeasureFrame lvl tmo s t

/-- R102: the closed form. `t1` is the first tick at the level from the start on, `t2` the first tick from `t1` on
at the other level; the result is the duration `t2`, returned at tick `t2`, where both exist and `t2` is within the
timeout, and otherwise Timeout, returned at the timeout. A duration returned is at least 1 and at most the timeout. -/
def Obligations.MeasureClosedForm : Prop :=
  ∀ (lvl : Level) (pz : Bool) (tmo : BitVec 30) (s : State) (items : List PinItem) (tail : Level),
    s.feed = .pin items tail → eventFree items = true →
    let k := pauseTicks pz s
    let L := fun x => levelAt tail items (k + x)
    let First := fun t1 t2 => t1 ≤ t2 ∧ L t1 = lvl ∧ (∀ x, x < t1 → L x ≠ lvl) ∧ L t2 ≠ lvl ∧
      (∀ x, t1 ≤ x → x < t2 → L x = lvl)
    ∃ t, exec (.measure lvl pz tmo) s = .next t ∧
      (∀ t1 t2, First t1 t2 → t2 ≤ tmo.toNat →
        mresTimeout t.mres = false ∧ mresDuration t.mres = t2 ∧ t.now = s.now + BitVec.ofNat 64 (k + t2)) ∧
      ((¬ ∃ t1 t2, First t1 t2 ∧ t2 ≤ tmo.toNat) →
        t.mres = timeoutWord ∧ t.now = s.now + BitVec.ofNat 64 (k + tmo.toNat)) ∧
      (mresTimeout t.mres = false → 1 ≤ mresDuration t.mres ∧ mresDuration t.mres ≤ tmo.toNat)

/-- R103: one deadline for both phases. If the level is first read after `a` ticks and lasts `b` ticks, the result is
Timeout whenever `a + b` exceeds the timeout, however short `b` is. -/
def Obligations.SharedDeadline : Prop :=
  ∀ (lvl : Level) (tmo : BitVec 30) (s : State) (items : List PinItem) (tail : Level) (a b : Nat),
    s.feed = .pin items tail → eventFree items = true →
    (∀ x, x < a → levelAt tail items x ≠ lvl) → (∀ x, a ≤ x → x < a + b → levelAt tail items x = lvl) →
    tmo.toNat < a + b →
    ∃ t, exec (.measure lvl false tmo) s = .next t ∧ t.mres = timeoutWord

/-- R101, R251: at stream level MEASURE takes the next result of the script as it stands, after the pause where one
is asked for, and the clock advances by the pause and by the result's duration or the whole timeout. Where the
script is empty the result is the free draw of log 2. Three things here are the model's choice: that the MU's
`mu_t0`, `mu_target` and `mu_timeout` are written at stream level, where R32 says that they do not exist (log 9);
and the ticks of a drawn result that no pin gives, a duration of 0 or over the timeout (log 20). -/
def Obligations.MeasureDrawsFromTheStream : Prop :=
  (∀ (lvl : Level) (pz : Bool) (tmo : BitVec 30) (s : State) (r : MresWord) (rest : List StreamItem),
    s.feed = .stream (.result r :: rest) →
    ∃ t, exec (.measure lvl pz tmo) s = .next t ∧ t.mres = r ∧ t.feed = .stream rest ∧ t.draws = s.draws ∧
      t.muT0 = s.now + BitVec.ofNat 64 (pauseTicks pz s) ∧
      t.now = t.muT0 + BitVec.ofNat 64 (if 2 ^ 31 ≤ r.toNat then tmo.toNat else r.toNat) ∧
      MeasureFrame lvl tmo s t) ∧
  (∀ (lvl : Level) (pz : Bool) (tmo : BitVec 30) (s : State), s.feed = .stream [] →
    ∃ t, exec (.measure lvl pz tmo) s = .next t ∧ t.mres = Config.freeResult s.draws ∧ t.feed = .stream [] ∧
      t.draws = s.draws + 1 ∧ MeasureFrame lvl tmo s t)

/-- R105: MEASURE has no side effect beyond the pin and the clock. Whenever it returns a result, at either level and
whatever the script holds, no register of the block has changed, and the MU is idle (R32). That its `mu_target` and
`mu_timeout` are the request's at stream level too, where R32 says that they do not exist, is the model's choice
(log 9). -/
def Obligations.MeasureWritesNoRegister : Prop :=
  ∀ (lvl : Level) (pz : Bool) (tmo : BitVec 30) (s t : State),
    muMeasure lvl pz tmo s = .done t → exec (.measure lvl pz tmo) s = .next t ∧ MeasureFrame lvl tmo s t

/-- R111, R251: the time from the start timestamp to the return is the duration, or the whole timeout, at either
level; and the start timestamp is the clock before it plus the pause (R106). At stream level two things are the
model's choice: that `mu_t0` holds the start timestamp, where R32 says that it does not exist (log 9), and the time
of a drawn result that no pin gives, a duration of 0 or over the timeout (log 20). -/
def Obligations.ResultIsElapsedTime : Prop :=
  ∀ (lvl : Level) (pz : Bool) (tmo : BitVec 30) (s t : State), muMeasure lvl pz tmo s = .done t →
    t.muT0 = s.now + BitVec.ofNat 64 (pauseTicks pz s) ∧
    t.now - t.muT0 = BitVec.ofNat 64 (if mresTimeout t.mres then tmo.toNat else mresDuration t.mres)

/-- R106, R245: pin activity during the pause is not seen. Two waveforms that agree from the end of the pause on
give the same result, at the same tick. -/
def Obligations.PauseIsBlind : Prop :=
  ∀ (lvl : Level) (tmo : BitVec 30) (s s' : State) (items items' : List PinItem) (tail : Level),
    s.feed = .pin items tail → s' = { s with feed := .pin items' tail } →
    eventFree items = true → eventFree items' = true →
    (∀ x, levelAt tail items (s.cfg.pauseUs + x) = levelAt tail items' (s.cfg.pauseUs + x)) →
    ∃ t t', exec (.measure lvl true tmo) s = .next t ∧ exec (.measure lvl true tmo) s' = .next t' ∧
      t' = { t with feed := t'.feed }

/-- R110, R104: from a tick at which the pin is HIGH, a LOW measurement that succeeds covers the whole HIGH time and
the whole LOW time after it, and leaves the pin HIGH, where the next one starts. -/
def Obligations.SymbolIsHighPlusLow : Prop :=
  ∀ (s : State) (tmo : BitVec 30) (a b c : Nat) (rest : List PinItem) (tail : Level),
    0 < a → 0 < b → 0 < c → a + b ≤ tmo.toNat →
    s.feed = .pin (.hold .high a :: .hold .low b :: .hold .high c :: rest) tail →
    ∃ t, exec (.measure .low false tmo) s = .next t ∧ mresTimeout t.mres = false ∧ mresDuration t.mres = a + b ∧
      t.feed = .pin (.hold .high c :: rest) tail

/-! ### Reset and commands -/

/-- The state a reset leaves (R22, R240), from the configuration, the clock and the rest of the script: every
register at its reset value. The MU's fields besides `mu_phase`, and the model's own, are the model's choice (log 9). -/
def IsReset (cfg : Config) (now : Clock) (feed : Feed) (t : State) : Prop :=
  t.st = .idle ∧ t.i = 0 ∧ t.prev = false ∧ t.sender = 0 ∧ t.group = false ∧ t.onBit = false ∧ t.recipient = 0 ∧
  t.pausePending = false ∧ t.setupErr = .none ∧ t.recValid = false ∧ t.recKind = .none ∧ t.recWord = 0 ∧
  t.recCause = .none ∧ t.muPhase = .idle ∧ t.now = now ∧ t.cfg = cfg ∧ t.feed = feed

/-- R240, R206: the reset input, in any state and at any tick. RESET sets every register of R22 to its reset value
and leaves the clock. A step that finds the reset input does exactly that. A reset that comes `n` ticks after a
SEEK or FRAME step began, while the measurement or its pause is still in progress, abandons it: no operation is
performed and no record emitted, and the clock stands at the reset's tick. -/
def Obligations.ResetInAnyStateAtAnyTick : Prop :=
  (∀ s : State, ∃ t, exec .reset s = .next t ∧ IsReset s.cfg s.now s.feed t) ∧
  (∀ (s : State) (feed : Feed), s.feed.take = some (.reset, feed) →
    ∃ t, step s = .next t ∧ IsReset s.cfg s.now feed t) ∧
  (∀ (s : State) (before after : List PinItem) (tail : Level),
    s.feed = .pin (before ++ .reset :: after) tail → eventFree before = true → s.mreq = none →
    s.st = .seek ∨ s.st = .frame →
    let k := pauseTicks s.pausePending s
    let n := holdTicks before
    let L := levelAt tail before
    n ≤ k + s.cfg.measureTimeoutUs.toNat →
    (∀ t1 t2, k ≤ t1 → t1 ≤ t2 → t2 < n → ¬ (L t1 = .low ∧ L t2 = .high)) →
    ∃ t, step s = .next t ∧ IsReset s.cfg (s.now + BitVec.ofNat 64 n) (.pin after tail) t)

/-- R22, R38: the state right after reset. The clock is free (I4) and the environment's script is empty (log 14). -/
def Obligations.ResetState : Prop :=
  IsReset Config.atReset Config.openClockStart (.stream []) State.reset

/-- R142: START, accepted in IDLE with no setup failure recorded, goes to SEEK with no pause pending and no valid
record, in the same tick, so that the first request has `PZ` 0; nothing else changes. Otherwise it is refused. -/
def Obligations.StartBeginsListening : Prop :=
  ∀ s : State,
    (s.st = .idle → s.setupErr = .none →
      ∃ t, exec .start s = .next t ∧ t = { s with st := .seek, pausePending := false, recValid := false } ∧
        t.now = s.now ∧ mreqPause (duRequest t) = false) ∧
    (s.st ≠ .idle ∨ s.setupErr ≠ .none → exec .start s = .refused (.commandNotAccepted 0b001))

/-- R143, R144, R205: FAIL_PIN and FAIL_INIT record their code, leave the block in IDLE, and change nothing else but
`rec_valid`; START is refused in the state they leave, and they are refused where START is. -/
def Obligations.SetupFailureIsRecorded : Prop :=
  ∀ s : State,
    (s.st = .idle → s.setupErr = .none →
      (∃ t, exec .failPin s = .next t ∧ t = { s with setupErr := .pinUnset, recValid := false } ∧
        t.setupErr.code = 0b01 ∧ t.st = .idle ∧ exec .start t = .refused (.commandNotAccepted 0b001)) ∧
      (∃ t, exec .failInit s = .next t ∧ t = { s with setupErr := .gpioInitFail, recValid := false } ∧
        t.setupErr.code = 0b10 ∧ t.st = .idle ∧ exec .start t = .refused (.commandNotAccepted 0b001))) ∧
    (s.st ≠ .idle ∨ s.setupErr ≠ .none →
      exec .failPin s = .refused (.commandNotAccepted 0b010) ∧
      exec .failInit s = .refused (.commandNotAccepted 0b011))

/-- R77, R80: a command the step finds. Accepted commands answer a next state; a reserved one, and one given outside
IDLE or after a setup failure, is refused by name; NOP is no command. -/
def Obligations.CommandsAreAcceptedOrRefused : Prop :=
  (∀ (s : State) (c : CtrlWord) (feed : Feed), s.feed.take = some (.command c, feed) →
    (4 ≤ c.toNat → step s = .refused (.reservedCommand c)) ∧
    (0 < c.toNat → c.toNat < 4 →
      (s.st = .idle ∧ s.setupErr = .none → ∃ t, step s = .next t ∧ t.feed = feed ∧ t.now = s.now) ∧
      (s.st ≠ .idle ∨ s.setupErr ≠ .none → step s = .refused (.commandNotAccepted c)))) ∧
  (∀ (feed feed' : Feed) (c : CtrlWord), feed.take = some (.command c, feed') → c ≠ 0)

/-- The host input after `before` finds a measurement of the level `lvl` still in progress, which waits `k` ticks and
then has `timeout` ticks: no host input comes earlier, the deadline has not gone by, and before it the pin has not
shown the level and then the other one. -/
def StillMeasuring (lvl : Level) (k timeout : Nat) (before : List PinItem) (tail : Level) : Prop :=
  eventFree before = true ∧ holdTicks before ≤ k + timeout ∧
  ∀ t1 t2, k ≤ t1 → t1 ≤ t2 → t2 < holdTicks before →
    ¬ (levelAt tail before t1 = lvl ∧ levelAt tail before t2 ≠ lvl)

/-- No reset input stands at the tick at which a pin script begins. -/
def NoResetNow (items : List PinItem) : Prop :=
  ∀ same rest, items = same ++ .reset :: rest → 0 < holdTicks same

/-- The refusal of a command that is not accepted: by its code, reserved or not (R77, R80). -/
def refusalByCode (c : CtrlWord) : Refusal := if 4 ≤ c.toNat then .reservedCommand c else .commandNotAccepted c

/-- R77, R80: a command other than NOP that comes while a measurement or its pause is in progress is refused by name, at
pin level at whatever tick it comes, at stream level before the result; for a SEEK or FRAME step, and for MEASURE by
itself. A reset input at the same pin-level tick goes before it (ResetOverridesCommands). That such a command counts as
one outside IDLE is DEDUCED, that it is refused for a request put to the MU alone is the model's choice (log 7), and
so are its place beside the level and the deadline of its tick, and that at stream level a command and a reset are
never simultaneous (log 6). -/
def Obligations.CommandDuringMeasurementIsRefused : Prop :=
  (∀ (lvl : Level) (pz : Bool) (tmo : BitVec 30) (s : State) (c : CtrlWord), c ≠ 0 →
    (∀ before after tail, s.feed = .pin (before ++ .ctrl c :: after) tail → NoResetNow after →
      StillMeasuring lvl (pauseTicks pz s) tmo.toNat before tail →
      exec (.measure lvl pz tmo) s = .refused (refusalByCode c)) ∧
    (∀ n rest, s.feed = .stream (List.replicate n (.ctrl 0) ++ .ctrl c :: rest) →
      exec (.measure lvl pz tmo) s = .refused (refusalByCode c))) ∧
  (∀ (s : State) (c : CtrlWord), c ≠ 0 → s.mreq = none → s.st = .seek ∨ s.st = .frame →
    (∀ before after tail, s.feed = .pin (before ++ .ctrl c :: after) tail → NoResetNow after →
      StillMeasuring .low (pauseTicks s.pausePending s) s.cfg.measureTimeoutUs.toNat before tail →
      step s = .refused (refusalByCode c)) ∧
    (∀ n rest, s.feed = .stream (List.replicate n (.ctrl 0) ++ .ctrl c :: rest) →
      step s = .refused (refusalByCode c)))

/-- R206, R240: reset has priority over everything. Where the reset input stands at one tick of a pin script with commands
before it, whichever they are, the block resets, at that tick: in any state at the step's start, and in a measurement
or its pause still in progress, for a SEEK or FRAME step and for MEASURE by itself. That the commands are dropped, and
that what the script puts after the reset comes after it, is the model's choice (log 6). -/
def Obligations.ResetOverridesCommands : Prop :=
  ∀ (same after : List PinItem) (tail : Level), holdTicks same = 0 → .reset ∉ same →
    (∀ s : State, s.feed = .pin (same ++ .reset :: after) tail →
      ∃ t, step s = .next t ∧ IsReset s.cfg s.now (.pin after tail) t) ∧
    (∀ (lvl : Level) (pz : Bool) (tmo : BitVec 30) (s : State) (before : List PinItem),
      s.feed = .pin (before ++ (same ++ .reset :: after)) tail →
      StillMeasuring lvl (pauseTicks pz s) tmo.toNat before tail →
      ∃ t, exec (.measure lvl pz tmo) s = .next t ∧
        IsReset s.cfg (s.now + BitVec.ofNat 64 (holdTicks before)) (.pin after tail) t) ∧
    (∀ (s : State) (before : List PinItem), s.feed = .pin (before ++ (same ++ .reset :: after)) tail →
      s.mreq = none → s.st = .seek ∨ s.st = .frame →
      StillMeasuring .low (pauseTicks s.pausePending s) s.cfg.measureTimeoutUs.toNat before tail →
      ∃ t, step s = .next t ∧
        IsReset s.cfg (s.now + BitVec.ofNat 64 (holdTicks before)) (.pin after tail) t)

/-- R141, R145: IDLE_WAIT and HALTED write no register: only time goes on. One tick of the clock and one waiting
step of the script are the model's choice (log 4). -/
def Obligations.WaitingWritesNoRegister : Prop :=
  ∀ (f : SelFields) (s : State),
    (∃ t, exec (.idleWait f) s = .next t ∧ t = { s with now := s.now + 1, feed := t.feed }) ∧
    (∃ t, exec (.halted f) s = .next t ∧ t = { s with now := s.now + 1, feed := t.feed })

/-! ### The operations of SEEK and FRAME -/

/-- R146, R147: SEEK_MISS writes nothing beyond the step's defaults; SEEK_HIT enters FRAME with the index, `prev` and
the four accumulators at 0, and writes nothing else. -/
def Obligations.SeekOperations : Prop :=
  ∀ (f : SelFields) (s : State),
    exec (.seekMiss f) s = .next s ∧
    ∃ t, exec (.seekHit f) s = .next t ∧ t.st = .frame ∧ t.i = 0 ∧ t.prev = false ∧ t.sender = 0 ∧
      t.group = false ∧ t.onBit = false ∧ t.recipient = 0 ∧
      t = { s with
        st := t.st, i := t.i, prev := t.prev, sender := t.sender, group := t.group, onBit := t.onBit
        recipient := t.recipient }

/-- What FrameAbort does (R202): the record holds the accumulators as they are, the block goes back to SEEK with the
index 0 and the pause pending, and nothing else changes. -/
def AbortsWith (kind : RecKind) (cause : Cause) (s t : State) : Prop :=
  t = { s with
    recKind := kind, recCause := cause, recWord := packWord s.sender s.group s.onBit s.recipient
    recValid := true, i := 0, st := .seek, pausePending := true }

/-- R148, R149, R151, R201, R202: the three operations that raise FrameAbort, with their kinds and causes; the cause of
an Invalid symbol is told by bit 31 of the result. -/
def Obligations.FrameAborts : Prop :=
  ∀ (f : SelFields) (s : State),
    let cause := if 2 ^ 31 ≤ s.mres.toNat then Cause.pulseTimeout else Cause.symbolOutOfRange
    (∃ t, exec (.frmNodata f) s = .next t ∧ AbortsWith .nodata cause s t) ∧
    (∃ t, exec (.frmAbort f) s = .next t ∧ AbortsWith .partialRec cause s t) ∧
    (∃ t, exec (.frmViol f) s = .next t ∧ AbortsWith .partialRec .manchesterViolation s t)

/-- What every operation that consumes a valid symbol without ending the frame does besides its fold: the symbol's
bit goes to `prev`, the index advances, and only `prev`, `i` and the four accumulators may change. -/
def ConsumesSymbol (f : SelFields) (s t : State) : Prop :=
  t.prev = f.cls.getLsbD 0 ∧ t.i = s.i + 1 ∧
  t = { s with
    prev := t.prev, i := t.i, sender := t.sender, group := t.group, onBit := t.onBit
    recipient := t.recipient }

/-- R150, R152 to R155: the operations that consume a valid symbol within the frame. The folded bit is the old
`prev`; a fold doubles the accumulator and adds it, within the accumulator's width; each writes its own accumulator
and leaves the other three. -/
def Obligations.FrameSymbols : Prop :=
  ∀ (f : SelFields) (s : State),
    (∃ t, exec (.frmEven f) s = .next t ∧ ConsumesSymbol f s t ∧ t.sender = s.sender ∧ t.group = s.group ∧
      t.onBit = s.onBit ∧ t.recipient = s.recipient) ∧
    (∃ t, exec (.frmSender f) s = .next t ∧ ConsumesSymbol f s t ∧
      t.sender.toNat = (2 * s.sender.toNat + s.prev.toNat) % 2 ^ 26 ∧ t.group = s.group ∧ t.onBit = s.onBit ∧
      t.recipient = s.recipient) ∧
    (∃ t, exec (.frmGroup f) s = .next t ∧ ConsumesSymbol f s t ∧ t.sender = s.sender ∧ t.group = s.prev ∧
      t.onBit = s.onBit ∧ t.recipient = s.recipient) ∧
    (∃ t, exec (.frmOn f) s = .next t ∧ ConsumesSymbol f s t ∧ t.sender = s.sender ∧ t.group = s.group ∧
      t.onBit = s.prev ∧ t.recipient = s.recipient) ∧
    (∃ t, exec (.frmRcpt f) s = .next t ∧ ConsumesSymbol f s t ∧ t.sender = s.sender ∧ t.group = s.group ∧
      t.onBit = s.onBit ∧ t.recipient.toNat = (2 * s.recipient.toNat + s.prev.toNat) % 2 ^ 4)

/-- R156, R163: FRM_LAST folds the last pair, emits the complete record with that fold in it, and stops in HALT, or
goes back to SEEK with the pause pending where the configuration is continuous. -/
def Obligations.FrameCompletes : Prop :=
  ∀ (f : SelFields) (s : State), ∃ t, exec (.frmLast f) s = .next t ∧
    t.recipient.toNat = (2 * s.recipient.toNat + s.prev.toNat) % 2 ^ 4 ∧ t.prev = f.cls.getLsbD 0 ∧ t.i = 0 ∧
    t.recKind = .complete ∧ t.recCause = .none ∧ t.recValid = true ∧
    t.recWord = packWord s.sender s.group s.onBit t.recipient ∧
    (s.cfg.continuous = true → t.st = .seek ∧ t.pausePending = true) ∧
    (s.cfg.continuous = false → t.st = .halt ∧ t.pausePending = s.pausePending) ∧
    t = { s with
      recipient := t.recipient, prev := t.prev, i := t.i, recKind := t.recKind, recCause := t.recCause
      recValid := t.recValid, recWord := t.recWord, st := t.st, pausePending := t.pausePending }

/-! ### The step -/

/-- R140, R206: what a step runs, with what it does around the operation: the reset input before everything, then a
command, then a request put to the MU alone, then what the selector selects; in SEEK and FRAME the measurement comes
first, and `pause_pending` and `rec_valid` go to their defaults. Two clauses are the model's choice: that a step with
no host input runs IDLE_WAIT in IDLE and HALTED in HALT, where R140 says `no step` (log 4), and that a request can be
put to the MU alone, and comes before what the selector selects (log 8). -/
def Obligations.StepRunsTheDecodedOperation : Prop :=
  ∀ s : State,
    (∀ feed, s.feed.take = some (.reset, feed) → step s = exec .reset { s with feed := feed }) ∧
    (∀ c feed i, s.feed.take = some (.command c, feed) → decodeCtrl c = .ok i →
      step s = exec i { s with feed := feed }) ∧
    (∀ w i, s.feed.take = none → s.mreq = some w → decode .mreq w = .ok i →
      step s = exec i { s with mreq := none }) ∧
    (∀ i, s.feed.take = none → s.mreq = none → s.st = .idle ∨ s.st = .halt → decodeSel (selWord s) = .ok i →
      step s = exec i s) ∧
    (∀ u i, s.feed.take = none → s.mreq = none → s.st = .seek ∨ s.st = .frame → duMeasure s = .done u →
      decodeSel (selWord u) = .ok i →
      step s = exec i { u with pausePending := false, recValid := false })

/-- The state a SEEK or FRAME step has after its measurement and the defaults of R140. -/
def Measured (s u : State) : Prop := s.feed.take = none ∧ s.mreq = none ∧ duMeasure s = .done u

/-- R146, R147, R203, R121: a SEEK step. A result that is no preamble, a Timeout too, is discarded silently: nothing
but the defaults. A preamble enters FRAME with everything at 0, and no pause before symbol 0. -/
def Obligations.SeekStep : Prop :=
  ∀ s u : State, Measured s u → s.st = .seek →
    (preMatch u.cfg u.mres = false → step s = .next { u with pausePending := false, recValid := false }) ∧
    (preMatch u.cfg u.mres = true →
      step s = .next { u with
        pausePending := false, recValid := false, st := .frame, i := 0, prev := false
        sender := 0, group := false, onBit := false, recipient := 0 })

/-- R148, R149, R206: a FRAME step on an Invalid symbol, at any index, whatever its parity and whatever `prev` holds,
aborts: with a no-data record at index 0, a partial one elsewhere. -/
def Obligations.InvalidSymbolAborts : Prop :=
  ∀ s u : State, Measured s u → s.st = .frame → classify u.cfg u.mres = .invalid →
    ∃ t, step s = .next t ∧
      AbortsWith (if s.i = 0 then .nodata else .partialRec)
        (if 2 ^ 31 ≤ u.mres.toNat then .pulseTimeout else .symbolOutOfRange) u t

/-- R151: a FRAME step at an odd index on a valid symbol whose bit equals the one before aborts with a Manchester
violation, and the pair is not folded. -/
def Obligations.EqualPairAborts : Prop :=
  ∀ s u : State, Measured s u → s.st = .frame → classify u.cfg u.mres ≠ .invalid → s.i.toNat % 2 = 1 →
    (classify u.cfg u.mres = .long ↔ s.prev = true) →
    ∃ t, step s = .next t ∧ AbortsWith .partialRec .manchesterViolation u t

/-- R150: a FRAME step at an even index on a valid symbol stores its bit and advances, with no pair check. -/
def Obligations.FirstSymbolIsStored : Prop :=
  ∀ s u : State, Measured s u → s.st = .frame → classify u.cfg u.mres ≠ .invalid → s.i.toNat % 2 = 0 →
    step s = .next { u with
      pausePending := false, recValid := false, prev := decide (classify u.cfg u.mres = .long), i := s.i + 1 }

/-- R152 to R157: a FRAME step at an odd index below 63 on a valid symbol whose bit differs from the one before folds
the bit of the pair's first symbol into the field of the index: `sender` up to 51, `group` at 53, `on` at 55,
`recipient` at 57, 59 and 61. -/
def Obligations.UnequalPairFolds : Prop :=
  ∀ s u : State, Measured s u → s.st = .frame → classify u.cfg u.mres ≠ .invalid → s.i.toNat % 2 = 1 →
    s.i.toNat < 63 → ¬ (classify u.cfg u.mres = .long ↔ s.prev = true) →
    ∃ t, step s = .next t ∧ t.prev = decide (classify u.cfg u.mres = .long) ∧ t.i.toNat = s.i.toNat + 1 ∧
      t.sender.toNat = (if s.i.toNat ≤ 51 then (2 * s.sender.toNat + s.prev.toNat) % 2 ^ 26 else s.sender.toNat) ∧
      t.group = (if s.i.toNat = 53 then s.prev else s.group) ∧
      t.onBit = (if s.i.toNat = 55 then s.prev else s.onBit) ∧
      t.recipient.toNat =
        (if 57 ≤ s.i.toNat then (2 * s.recipient.toNat + s.prev.toNat) % 2 ^ 4 else s.recipient.toNat) ∧
      t = { u with
        pausePending := false, recValid := false, prev := t.prev, i := t.i, sender := t.sender
        group := t.group, onBit := t.onBit, recipient := t.recipient }

/-- R156, R163: a FRAME step at index 63 on a valid symbol whose bit differs from the one before folds the last pair
into `recipient`, emits the complete record with that fold in it, and stops in HALT, or goes back to SEEK with the
pause pending where the configuration is continuous. -/
def Obligations.LastPairCompletesTheFrame : Prop :=
  ∀ s u : State, Measured s u → s.st = .frame → classify u.cfg u.mres ≠ .invalid → s.i.toNat = 63 →
    ¬ (classify u.cfg u.mres = .long ↔ s.prev = true) →
    ∃ t, step s = .next t ∧ t.prev = decide (classify u.cfg u.mres = .long) ∧ t.i = 0 ∧
      t.recipient.toNat = (2 * s.recipient.toNat + s.prev.toNat) % 2 ^ 4 ∧
      t.recKind = .complete ∧ t.recCause = .none ∧ t.recValid = true ∧
      t.recWord = packWord s.sender s.group s.onBit t.recipient ∧
      (s.cfg.continuous = true → t.st = .seek ∧ t.pausePending = true) ∧
      (s.cfg.continuous = false → t.st = .halt ∧ t.pausePending = false) ∧
      t = { u with
        recipient := t.recipient, prev := t.prev, i := t.i, recKind := t.recKind, recCause := t.recCause
        recValid := t.recValid, recWord := t.recWord, st := t.st, pausePending := t.pausePending }

/-- R107, R251: what an operation costs in time. A SEEK or FRAME step costs the pause where it was pending, and the
duration or the timeout; the operation itself, a command and the reset cost nothing. The ticks of a result drawn at
stream level that no pin gives, a duration of 0 or over the timeout, are the model's choice (log 20). -/
def Obligations.StepTiming : Prop :=
  (∀ s u t : State, Measured s u → s.st = .seek ∨ s.st = .frame → step s = .next t →
    t.now = s.now + BitVec.ofNat 64 (pauseTicks s.pausePending s +
      (if mresTimeout u.mres then s.cfg.measureTimeoutUs.toNat else mresDuration u.mres))) ∧
  (∀ (i : Instr) (s t : State), exec i s = .next t →
    (∀ f, i ≠ .idleWait f) → (∀ f, i ≠ .halted f) → (∀ l p m, i ≠ .measure l p m) → t.now = s.now)

/-! ### The whole machine -/

/-- R34: the configuration is fixed for a run: no operation and no step writes it. -/
def Obligations.ConfigurationIsFixed : Prop :=
  (∀ (i : Instr) (s t : State), exec i s = .next t → t.cfg = s.cfg) ∧
  (∀ s t : State, step s = .next t → t.cfg = s.cfg)

/-- R30, R180, R184, R185: a step leaves the last record on the output registers, unless it emits one, which only a
FRAME step does, or resets them. -/
def Obligations.RecordStandsUntilNextEmission : Prop :=
  ∀ s t : State, step s = .next t →
    (t.recKind = s.recKind ∧ t.recWord = s.recWord ∧ t.recCause = s.recCause) ∨
    (s.st = .frame ∧ t.recValid = true ∧ t.recKind ≠ .none ∧ t.i = 0 ∧ (t.st = .seek ∨ t.st = .halt)) ∨
    (t.st = .idle ∧ t.recValid = false ∧ t.recKind = .none ∧ t.recWord = 0 ∧ t.recCause = .none)

/-- R145, R204, R250: a run that has ended stays where it is. In HALT, and in IDLE after a setup failure, only the
reset input has an effect: every command is refused, and a step without one, and without a request put to the MU
alone (log 8), changes no register. That a waiting step takes one tick is the model's choice (log 4). -/
def Obligations.EndedRunWaitsForReset : Prop :=
  ∀ s : State, s.ended = true →
    (∀ c feed, s.feed.take = some (.command c, feed) → ∃ r, step s = .refused r) ∧
    (∀ feed, s.feed.take = some (.reset, feed) → ∃ t, step s = .next t ∧ IsReset s.cfg s.now feed t) ∧
    (s.feed.take = none → s.mreq = none →
      ∃ t, step s = .next t ∧ t = { s with now := s.now + 1, feed := t.feed })

/-- R163, R161: a continuous block never comes to HALT. -/
def Obligations.ContinuousNeverHalts : Prop :=
  ∀ s t : State, s.cfg.continuous = true → s.st ≠ .halt → step s = .next t → t.st ≠ .halt

/-- R33: how the sequencing state moves. A step that is not reset, command or wait takes SEEK to SEEK or to FRAME at
index 0, and FRAME to FRAME at the next index, to SEEK at index 0, or, from index 63 only, to HALT at index 0. -/
def Obligations.SequencingAdvances : Prop :=
  ∀ s u t : State, Measured s u → step s = .next t →
    (s.st = .seek → (t.st = .seek ∧ t.i = s.i) ∨ (t.st = .frame ∧ t.i = 0)) ∧
    (s.st = .frame →
      (t.st = .frame ∧ t.i.toNat = s.i.toNat + 1) ∨ (t.st = .seek ∧ t.i = 0) ∨
      (s.i = 63 ∧ t.st = .halt ∧ t.i = 0))

/-- The invariant holds right after reset, whatever the configuration and the clock. -/
def Obligations.InvariantAtReset : Prop :=
  State.reset.Inv ∧ ∀ (cfg : Config) (now : Clock), (State.resetWith cfg now).Inv

/-- R37, R158, R28, R30, R181, R183: every step that answers a next state keeps the invariant: the index 0 outside
FRAME, the accumulators bounded by the pairs folded so far, the record registers fitting together (a no-data
record's word is 0), the pause and the valid record where the rules put them. -/
def Obligations.StepKeepsInvariant : Prop :=
  ∀ s t : State, s.Inv → step s = .next t → t.Inv

/-- The measurement results of a frame: a valid symbol at every index, the two of each pair different (R157). -/
def ValidSymbols (cfg : Config) (rs : List MresWord) : Prop :=
  (∀ r ∈ rs, classify cfg r ≠ .invalid) ∧
  ∀ p, 2 * p + 1 < rs.length →
    classify cfg (rs.getD (2 * p) 0) ≠ classify cfg (rs.getD (2 * p + 1) 0)

/-- The bit of symbol `k` of a frame (R122). -/
def symbolAt (cfg : Config) (rs : List MresWord) (k : Nat) : Bool := decide (classify cfg (rs.getD k 0) = .long)

/-- R158: the accumulators after `n` pairs, from any state in SEEK. The preamble and then `2 n` symbols, each pair of
two different valid symbols, leave FRAME at index `2 n` with the bits of the pairs' first symbols in the fields,
first bit most significant: `sender` the first 26, then `group`, `on` and `recipient`. -/
def Obligations.AccumulatorsHoldFoldedPairs : Prop :=
  ∀ (s : State) (pre : MresWord) (rs : List MresWord) (rest : List StreamItem) (n : Nat),
    n ≤ 31 → rs.length = 2 * n → s.st = .seek → s.mreq = none → preMatch s.cfg pre = true →
    ValidSymbols s.cfg rs → s.feed = .stream ((pre :: rs).map .result ++ rest) →
    ∃ t, Sys2Proof.core.run (2 * n + 1) s = .next t ∧ t.st = .frame ∧ t.i.toNat = 2 * n ∧ t.feed = .stream rest ∧
      (∀ p, p < min n 26 → t.sender.getLsbD (min n 26 - 1 - p) = symbolAt s.cfg rs (2 * p)) ∧
      t.sender.toNat < 2 ^ min n 26 ∧
      t.group = (decide (26 < n) && symbolAt s.cfg rs 52) ∧
      t.onBit = (decide (27 < n) && symbolAt s.cfg rs 54) ∧
      (∀ p, 28 ≤ p → p < n → t.recipient.getLsbD (n - 1 - p) = symbolAt s.cfg rs (2 * p)) ∧
      t.recipient.toNat < 2 ^ (n - 28) ∧
      (0 < n → t.prev = symbolAt s.cfg rs (2 * n - 1))

/-- R157, R164, R184: decoding is total and deterministic. From any state in SEEK, a preamble and 64 valid symbols, the two
of each pair different, end in exactly one complete record: none of the first 64 steps emits one (each answers a next
state with `rec_valid` 0), and the 65th emits it, with bit `31 - p` the bit of symbol `2 p`; the block is then in
HALT, or in SEEK with the pause pending where it is continuous. -/
def Obligations.ValidFrameDecodes : Prop :=
  ∀ (s : State) (pre : MresWord) (rs : List MresWord) (rest : List StreamItem),
    rs.length = 64 → s.st = .seek → s.mreq = none → preMatch s.cfg pre = true →
    ValidSymbols s.cfg rs → s.feed = .stream ((pre :: rs).map .result ++ rest) →
    (∀ k, 0 < k → k < 65 → ∃ v, Sys2Proof.core.run k s = .next v ∧ v.recValid = false) ∧
    ∃ t, Sys2Proof.core.run 65 s = .next t ∧ t.recValid = true ∧ t.recKind = .complete ∧ t.recCause = .none ∧
      (∀ p, p < 32 → t.recWord.getLsbD (31 - p) = symbolAt s.cfg rs (2 * p)) ∧
      t.recWord = t.pack ∧ t.i = 0 ∧ t.feed = .stream rest ∧
      (s.cfg.continuous = false → t.st = .halt ∧ t.pausePending = false) ∧
      (s.cfg.continuous = true → t.st = .seek ∧ t.pausePending = true)

/-- R159, R202: an abort at index `k`, by an Invalid symbol or by a pair of equal symbols, consumes symbol `k` and
nothing after it. The next step is a SEEK step on the next result, with the pause asked for, whatever that result
is. -/
def Obligations.AbortResumesInSeek : Prop :=
  ∀ (s : State) (r r' : MresWord) (rest : List StreamItem), s.st = .frame → s.mreq = none →
    s.feed = .stream (.result r :: .result r' :: rest) →
    classify s.cfg r = .invalid ∨
      (s.i.toNat % 2 = 1 ∧ classify s.cfg r ≠ .invalid ∧ (classify s.cfg r = .long ↔ s.prev = true)) →
    ∃ t, step s = .next t ∧ t.st = .seek ∧ t.feed = .stream (.result r' :: rest) ∧
      mreqPause (duRequest t) = true ∧
      ∃ t', step t = .next t' ∧ t'.feed = .stream rest ∧ t'.pausePending = false ∧ t'.recValid = false ∧
        t'.recWord = t.recWord ∧ t'.st = (if preMatch s.cfg r' then .frame else .seek)
end

