-- ==== Sys2Proof/Laws/Decode.lean ====
section
/-! SUPPORT. The decoder of step selectors as one case split over the selector's fields (R75, R79): `decodeSel_toWord`
is what later proofs cite, instead of walking the table. -/

namespace Sys2Proof

/-- A selector's fields read back from its word. -/
@[simp] theorem SelFields.ofWord_toWord (st : BitVec 2) (f : SelFields) : SelFields.ofWord (f.toWord st) = f := by
  obtain ⟨cls, pre, eq, idx⟩ := f
  have h7 : BitVec.getLsbD (st ++ cls ++ BitVec.ofBool pre ++ BitVec.ofBool eq ++ idx) 7 = pre := by
    simp only [BitVec.getLsbD_append]; simp
  have h6 : BitVec.getLsbD (st ++ cls ++ BitVec.ofBool pre ++ BitVec.ofBool eq ++ idx) 6 = eq := by
    simp only [BitVec.getLsbD_append]; simp
  have h8 : BitVec.extractLsb' 8 2 (st ++ cls ++ BitVec.ofBool pre ++ BitVec.ofBool eq ++ idx) = cls := by
    ext k hk
    simp only [BitVec.getElem_extractLsb', BitVec.getLsbD_append]
    interval_cases k <;> simp
  have h0 : BitVec.extractLsb' 0 6 (st ++ cls ++ BitVec.ofBool pre ++ BitVec.ofBool eq ++ idx) = idx :=
    BitVec.extractLsb'_append_eq_right
  exact congr (congr (congr (congrArg SelFields.mk h8) h7) h6) h0

/-- A selector's `ST` reads back from its word. -/
@[simp] theorem SelFields.state_toWord (st : BitVec 2) (f : SelFields) : (f.toWord st).extractLsb' 10 2 = st := by
  have h : BitVec.extractLsb' 10 2 (st ++ f.cls ++ BitVec.ofBool f.pre ++ BitVec.ofBool f.eq ++ f.idx) = st := by
    ext k hk
    simp only [BitVec.getElem_extractLsb', BitVec.getLsbD_append]
    interval_cases k <;> simp
  exact h

/-- No two selectors share a word. -/
theorem SelFields.toWord_inj {a b : BitVec 2} {f g : SelFields} : f.toWord a = g.toWord b ↔ a = b ∧ f = g := by
  constructor
  · intro h
    exact ⟨by rw [← state_toWord a f, h, state_toWord], by rw [← ofWord_toWord a f, h, ofWord_toWord]⟩
  · rintro ⟨rfl, rfl⟩; rfl

/-- A mask acts on each field. -/
theorem SelFields.and_toWord (a b : BitVec 2) (f g : SelFields) :
    f.toWord a &&& g.toWord b =
      SelFields.toWord (a &&& b) ⟨f.cls &&& g.cls, f.pre && g.pre, f.eq && g.eq, f.idx &&& g.idx⟩ := by
  have hb : ∀ x y : Bool, BitVec.ofBool x &&& BitVec.ofBool y = BitVec.ofBool (x && y) := by decide
  have h : (a ++ f.cls ++ BitVec.ofBool f.pre ++ BitVec.ofBool f.eq ++ f.idx) &&&
      (b ++ g.cls ++ BitVec.ofBool g.pre ++ BitVec.ofBool g.eq ++ g.idx) =
      (a &&& b) ++ (f.cls &&& g.cls) ++ BitVec.ofBool (f.pre && g.pre) ++ BitVec.ofBool (f.eq && g.eq)
        ++ (f.idx &&& g.idx) := by
    simp only [BitVec.and_append, hb]
  exact h

/-- A row whose pattern and mask are given field by field. -/
theorem SelRow.hits_fields (a b p : BitVec 2) (f m g : SelFields) (n : Nat) (op : SelFields → Instr) :
    SelRow.hits ⟨g.toWord p, m.toWord b, n, op⟩ (f.toWord a) =
      (a &&& b == p && (f.cls &&& m.cls == g.cls) && ((f.pre && m.pre) == g.pre) && ((f.eq && m.eq) == g.eq)
        && (f.idx &&& m.idx == g.idx)) := by
  rw [Bool.eq_iff_iff]
  simp [SelRow.hits, SelFields.and_toWord, SelFields.toWord_inj]
  cases g; simp [SelFields.mk.injEq, and_assoc]

/-- The operation a selector selects, as one case split over its fields. -/
def selectOp (st : BitVec 2) (f : SelFields) : Instr :=
  if st = 0b11 then .idleWait f
  else if st = 0b10 then .halted f
  else if st = 0b00 then (if f.pre then .seekHit f else .seekMiss f)
  else if f.invalid then (if f.idx = 0 then .frmNodata f else .frmAbort f)
  else if f.odd = false then .frmEven f
  else if f.eq then .frmViol f
  else if f.idx = 53 then .frmGroup f
  else if f.idx = 55 then .frmOn f
  else if f.idx = 63 then .frmLast f
  else if 57 ≤ f.idx.toNat then .frmRcpt f
  else .frmSender f

/-- The patterns and masks of the table, field by field. -/
theorem selTable_fields : selTable = [
  ⟨SelFields.toWord 3 ⟨0, false, false, 0⟩, SelFields.toWord 3 ⟨0, false, false, 0⟩, 0, .idleWait⟩,
  ⟨SelFields.toWord 2 ⟨0, false, false, 0⟩, SelFields.toWord 3 ⟨0, false, false, 0⟩, 0, .halted⟩,
  ⟨SelFields.toWord 0 ⟨0, false, false, 0⟩, SelFields.toWord 3 ⟨0, true, false, 0⟩, 0, .seekMiss⟩,
  ⟨SelFields.toWord 0 ⟨0, true, false, 0⟩, SelFields.toWord 3 ⟨0, true, false, 0⟩, 0, .seekHit⟩,
  ⟨SelFields.toWord 1 ⟨2, false, false, 0⟩, SelFields.toWord 3 ⟨2, false, false, 63⟩, 0, .frmNodata⟩,
  ⟨SelFields.toWord 1 ⟨2, false, false, 0⟩, SelFields.toWord 3 ⟨2, false, false, 0⟩, 1, .frmAbort⟩,
  ⟨SelFields.toWord 1 ⟨0, false, false, 0⟩, SelFields.toWord 3 ⟨2, false, false, 1⟩, 0, .frmEven⟩,
  ⟨SelFields.toWord 1 ⟨0, false, true, 1⟩, SelFields.toWord 3 ⟨2, false, true, 1⟩, 0, .frmViol⟩,
  ⟨SelFields.toWord 1 ⟨0, false, false, 1⟩, SelFields.toWord 3 ⟨2, false, true, 1⟩, 2, .frmSender⟩,
  ⟨SelFields.toWord 1 ⟨0, false, false, 53⟩, SelFields.toWord 3 ⟨2, false, true, 63⟩, 0, .frmGroup⟩,
  ⟨SelFields.toWord 1 ⟨0, false, false, 55⟩, SelFields.toWord 3 ⟨2, false, true, 63⟩, 0, .frmOn⟩,
  ⟨SelFields.toWord 1 ⟨0, false, false, 57⟩, SelFields.toWord 3 ⟨2, false, true, 57⟩, 1, .frmRcpt⟩,
  ⟨SelFields.toWord 1 ⟨0, false, false, 63⟩, SelFields.toWord 3 ⟨2, false, true, 63⟩, 0, .frmLast⟩] := by
  rfl

/-- Words that match the same rows pick the same row. -/
theorem pickRow_congr {w v : SelWord} : ∀ {rows : List SelRow}, (∀ r ∈ rows, r.hits w = r.hits v) →
    pickRow w rows = pickRow v rows
  | [], _ => rfl
  | r :: rows, h => by
    have hr := h r (by simp)
    have ht := pickRow_congr (rows := rows) fun x hx => h x (by simp [hx])
    simp only [pickRow, ht, hr]


/-- The fields no row of a state looks at may be cleared. -/
theorem hits_rep (st : BitVec 2) (f : SelFields) : ∀ r ∈ selTable, r.hits (f.toWord st) =
   r.hits (SelFields.toWord st ⟨f.cls &&& 2#2, if st = 0 then f.pre else false, if st = 1 then f.eq else false, if st = 1 then f.idx else 0⟩) := by
  have hst : ∀ st : BitVec 2, st = 0 ∨ st = 1 ∨ st = 2 ∨ st = 3 := by decide
  obtain ⟨cls, pre, eq, idx⟩ := f
  have hc : cls &&& 2#2 &&& 2#2 = cls &&& 2#2 := by revert cls; decide
  simp only [selTable_fields, List.forall_mem_cons, SelRow.hits_fields]
  rcases hst st with rfl | rfl | rfl | rfl <;> simp [hc]

/-- The picked row is a row of the table. -/
theorem pickRow_mem {w : SelWord} : ∀ {rows : List SelRow} {r : SelRow}, pickRow w rows = some r → r ∈ rows
  | x :: rows, r, h => by
    simp only [pickRow] at h
    split at h
    · split at h
      · simp_all
      · rename_i b hb
        have := pickRow_mem hb
        split at h <;> simp_all
    · exact List.mem_cons_of_mem _ (pickRow_mem h)

/-- The row of a selector with these fields, as the prose of R79 says it. -/
def rowOf (st : BitVec 2) (invalid pre eq : Bool) (idx : BitVec 6) : SelRow :=
  if st = 0b11 then ⟨0xC00, 0xC00, 0, .idleWait⟩
  else if st = 0b10 then ⟨0x800, 0xC00, 0, .halted⟩
  else if st = 0b00 then (if pre then ⟨0x080, 0xC80, 0, .seekHit⟩ else ⟨0x000, 0xC80, 0, .seekMiss⟩)
  else if invalid then (if idx = 0 then ⟨0x600, 0xE3F, 0, .frmNodata⟩ else ⟨0x600, 0xE00, 1, .frmAbort⟩)
  else if idx.getLsbD 0 = false then ⟨0x400, 0xE01, 0, .frmEven⟩
  else if eq then ⟨0x441, 0xE41, 0, .frmViol⟩
  else if idx = 53 then ⟨0x435, 0xE7F, 0, .frmGroup⟩
  else if idx = 55 then ⟨0x437, 0xE7F, 0, .frmOn⟩
  else if idx = 63 then ⟨0x43F, 0xE7F, 0, .frmLast⟩
  else if 57 ≤ idx.toNat then ⟨0x439, 0xE79, 1, .frmRcpt⟩
  else ⟨0x401, 0xE41, 2, .frmSender⟩

/-- The row that selects for a selector with the fields `f`. -/
def selectRow (st : BitVec 2) (f : SelFields) : SelRow := rowOf st f.invalid f.pre f.eq f.idx

/-- The pattern and the mask, which tell the rows apart. -/
def SelRow.key (r : SelRow) : SelWord × SelWord := (r.bits, r.mask)

/-- The selected row is a row of the table. -/
theorem selectRow_mem (st : BitVec 2) (f : SelFields) : selectRow st f ∈ selTable := by
  unfold selectRow rowOf selTable
  repeat' split
  all_goals simp

/-- No two rows share pattern and mask. -/
theorem row_eq_of_key : ∀ r ∈ selTable, ∀ r' ∈ selTable, r.key = r'.key → r = r' := by
  simp [selTable, SelRow.key]

/-- The FRAME rows, at every index. -/
theorem pick_rep1 : ∀ (c : Bool) (eq : Bool) (idx : BitVec 6),
   (pickRow (SelFields.toWord 1 ⟨if c then 2#2 else 0#2, false, eq, idx⟩) selTable).map SelRow.key =
    some (rowOf 1 c false eq idx).key := by decide +kernel
/-- The SEEK rows. -/
theorem pick_rep0 : ∀ (c pre : Bool),
   (pickRow (SelFields.toWord 0 ⟨if c then 2#2 else 0#2, pre, false, 0⟩) selTable).map SelRow.key =
    some (rowOf 0 c pre false 0).key := by decide +kernel
/-- The HALT and IDLE rows. -/
theorem pick_rep23 : ∀ (c b : Bool), 
   (pickRow (SelFields.toWord (if b then 3 else 2) ⟨if c then 2#2 else 0#2, false, false, 0⟩) selTable).map SelRow.key =
    some (rowOf (if b then 3 else 2) c false false 0).key := by decide +kernel

/-- The row the table picks for a selector. -/
theorem pickRow_toWord (st : BitVec 2) (f : SelFields) : pickRow (f.toWord st) selTable = some (selectRow st f) := by
  have hst : ∀ st : BitVec 2, st = 0 ∨ st = 1 ∨ st = 2 ∨ st = 3 := by decide
  have hcls : f.cls &&& 2#2 = if f.invalid then 2#2 else 0#2 := by
    unfold SelFields.invalid; generalize f.cls = c; revert c; decide
  have key : (pickRow (f.toWord st) selTable).map SelRow.key = some (selectRow st f).key := by
    rw [pickRow_congr (hits_rep st f), hcls]
    rcases hst st with rfl | rfl | rfl | rfl
    · simpa [selectRow, rowOf] using pick_rep0 f.invalid f.pre
    · exact pick_rep1 f.invalid f.eq f.idx
    · simpa [selectRow, rowOf] using pick_rep23 f.invalid false
    · simpa [selectRow, rowOf] using pick_rep23 f.invalid true
  cases h : pickRow (f.toWord st) selTable with
  | none => simp [h] at key
  | some r =>
    rw [h] at key
    exact congrArg some (row_eq_of_key r (pickRow_mem h) _ (selectRow_mem st f) (by simpa using key))

/-- What the decoder reads from a selector. -/
@[simp] theorem decodeSel_toWord (st : BitVec 2) (f : SelFields) : decodeSel (f.toWord st) = .ok (selectOp st f) := by
  have h : (selectRow st f).op f = selectOp st f := by
    simp only [selectRow, rowOf, selectOp, SelFields.odd, apply_ite (fun r : SelRow => r.op f)]
    rfl
  simp only [decodeSel, pickRow_toWord, SelFields.ofWord_toWord, h]
end Sys2Proof
end

