-- ==== Sys2Proof/Laws/Script.lean ====
section
/-! SUPPORT. What the walks of the measurement unit do on a script, with a host input in it or without: one lemma per walk,
in terms of the waveform `levelAt`, which later proofs cite instead of unfolding a walk. -/

namespace Sys2Proof.Machine

@[simp] theorem after_reached (k n : Nat) (items : List PinItem) :
    Walk.after k (.reached n items) = .reached (k + n) items := rfl

@[simp] theorem after_expired (k n : Nat) (items : List PinItem) :
    Walk.after k (.expired n items) = .expired (k + n) items := rfl

theorem eventFree_cons {x : PinItem} {items : List PinItem} :
    eventFree (x :: items) = true ↔ x.isEvent = false ∧ eventFree items = true := by
  simp [eventFree]

/-- The waveform past a hold. -/
theorem levelAt_hold_add (tail l : Level) (m : Nat) (items : List PinItem) (x : Nat) :
    levelAt tail (.hold l m :: items) (m + x) = levelAt tail items x := by
  simp [levelAt]

/-- The waveform inside a hold that has lost its first ticks. -/
theorem levelAt_hold_sub {tail l : Level} {m n : Nat} {items : List PinItem} (h : n < m) (x : Nat) :
    levelAt tail (.hold l (m - n) :: items) x = levelAt tail (.hold l m :: items) (n + x) := by
  simp only [levelAt]
  by_cases hx : x < m - n
  · rw [if_pos hx, if_pos (by omega)]
  · rw [if_neg hx, if_neg (by omega)]
    congr 1; omega

/-- The pause walks exactly its ticks, and leaves the waveform from there on (R106). -/
theorem walkPause_spec (tail : Level) : ∀ (items : List PinItem) (n : Nat), eventFree items = true →
    ∃ rest, walkPause items n = .reached n rest ∧ eventFree rest = true ∧
      ∀ x, levelAt tail rest x = levelAt tail items (n + x)
  | [], n, _ => ⟨[], rfl, rfl, fun x => by simp [levelAt]⟩
  | .hold l m :: items, n, h => by
    have hf := (eventFree_cons.mp h).2
    by_cases hn : n < m
    · refine ⟨.hold l (m - n) :: items, by simp [walkPause, hn], by simpa [eventFree_cons, PinItem.isEvent] using hf,
        levelAt_hold_sub hn⟩
    · obtain ⟨rest, hw, he, hl⟩ := walkPause_spec tail items (n - m) hf
      refine ⟨rest, ?_, he, fun x => ?_⟩
      · rw [walkPause, if_neg hn, hw, after_reached]
        congr 1; omega
      · rw [hl, show n + x = m + (n - m + x) by omega, levelAt_hold_add]
  | .reset :: _, _, h => by simp [eventFree_cons, PinItem.isEvent] at h
  | .ctrl c :: items, n, h => by
    obtain ⟨hc, hf⟩ := eventFree_cons.mp h
    have hc0 : c = 0 := by simpa [PinItem.isEvent] using hc
    obtain ⟨rest, hw, he, hl⟩ := walkPause_spec tail items n hf
    exact ⟨rest, by rw [walkPause, if_pos hc0, hw], he, fun x => by rw [hl]; rfl⟩

/-- What `walkTo` answers on a waveform alone: the first tick within the budget at which the pin reads `want`, or
the deadline where there is none; and the waveform from there on. -/
def WalkAnswers (want tail : Level) (items : List PinItem) (budget : Nat) (w : Walk) : Prop :=
  (∃ n rest, w = .reached n rest ∧ n ≤ budget ∧ eventFree rest = true ∧
      (∀ x, x < n → levelAt tail items x ≠ want) ∧ levelAt tail items n = want ∧
      ∀ x, levelAt tail rest x = levelAt tail items (n + x)) ∨
  (∃ rest, w = .expired budget rest ∧ eventFree rest = true ∧
      (∀ x, x ≤ budget → levelAt tail items x ≠ want) ∧
      ∀ x, levelAt tail rest x = levelAt tail items (budget + x))

/-- A walk finds the first tick of the level it waits for, or ends at the deadline (R100, R102). -/
theorem walkTo_spec (want tail : Level) : ∀ (items : List PinItem) (budget : Nat), eventFree items = true →
    WalkAnswers want tail items budget (walkTo want tail items budget)
  | [], b, _ => by
    by_cases h : tail = want
    · exact .inl ⟨0, [], by simp [walkTo, h], by omega, rfl, by omega, by simp [levelAt, h], by simp [levelAt]⟩
    · exact .inr ⟨[], by simp [walkTo, h], rfl, by simp [levelAt, h], by simp [levelAt]⟩
  | .hold l m :: items, b, h => by
    have hf := (eventFree_cons.mp h).2
    by_cases hm : m = 0
    · subst hm
      have hl : ∀ x, levelAt tail (.hold l 0 :: items) x = levelAt tail items x := fun x => by simp [levelAt]
      simpa only [walkTo, if_true, WalkAnswers, hl] using walkTo_spec want tail items b hf
    by_cases hl : l = want
    · exact .inl ⟨0, .hold l m :: items, by simp [walkTo, hm, hl], by omega, h, by omega,
        by simp [levelAt, Nat.pos_of_ne_zero hm, hl], by simp⟩
    by_cases hb : b < m
    · refine .inr ⟨.hold l (m - b) :: items, by simp [walkTo, hm, hl, hb],
        by simpa [eventFree_cons, PinItem.isEvent] using hf, fun x hx => ?_, levelAt_hold_sub hb⟩
      simpa [levelAt, show x < m by omega] using hl
    · have low : ∀ x, x < m → levelAt tail (.hold l m :: items) x ≠ want := fun x hx => by
        simpa [levelAt, hx] using hl
      have high : ∀ x, m ≤ x → levelAt tail (.hold l m :: items) x = levelAt tail items (x - m) := fun x hx => by
        simp [levelAt, Nat.not_lt.mpr hx]
      rcases walkTo_spec want tail items (b - m) hf with
        ⟨n, rest, hw, hn, he, hbelow, hat, hrest⟩ | ⟨rest, hw, he, hbelow, hrest⟩
      · refine .inl ⟨m + n, rest, by simp [walkTo, hm, hl, hb, hw], by omega, he, fun x hx => ?_, ?_, fun x => ?_⟩
        · by_cases hxm : x < m
          · exact low x hxm
          · rw [high x (by omega)]; exact hbelow _ (by omega)
        · rw [levelAt_hold_add]; exact hat
        · rw [hrest, Nat.add_assoc, levelAt_hold_add]
      · refine .inr ⟨rest, ?_, he, fun x hx => ?_, fun x => ?_⟩
        · simp only [walkTo, hm, hl, hb, hw, if_false, after_expired]
          congr 1; omega
        · by_cases hxm : x < m
          · exact low x hxm
          · rw [high x (by omega)]; exact hbelow _ (by omega)
        · rw [hrest, show b + x = m + (b - m + x) by omega, levelAt_hold_add]
  | .reset :: _, _, h => by simp [eventFree_cons, PinItem.isEvent] at h
  | .ctrl c :: items, b, h => by
    obtain ⟨hc, hf⟩ := eventFree_cons.mp h
    have hc0 : c = 0 := by simpa [PinItem.isEvent] using hc
    subst hc0
    have hl : ∀ x, levelAt tail (.ctrl 0 :: items) x = levelAt tail items x := fun _ => rfl
    simpa only [walkTo, if_true, WalkAnswers, hl] using walkTo_spec want tail items b hf

/-- A walk reaches its level within the budget, and ends at the deadline exactly there, whatever the script holds. -/
theorem walkTo_ticks (want tail : Level) : ∀ (items : List PinItem) (budget : Nat),
    (∀ n rest, walkTo want tail items budget = .reached n rest → n ≤ budget) ∧
    (∀ n rest, walkTo want tail items budget = .expired n rest → n = budget)
  | [], b => by
    constructor <;> intro n rest h <;> simp only [walkTo] at h <;> split at h <;> cases h <;> omega
  | .hold l m :: items, b => by
    by_cases hm : m = 0
    · simpa [walkTo, hm] using walkTo_ticks want tail items b
    by_cases hl : l = want
    · simp [walkTo, hm, hl]
    by_cases hb : b < m
    · simp [walkTo, hm, hl, hb]
    have ih := walkTo_ticks want tail items (b - m)
    simp only [walkTo, hm, hl, hb, if_false]
    cases hw : walkTo want tail items (b - m) with
    | reached k r =>
      have := ih.1 k r hw
      simp [Walk.after]; omega
    | expired k r =>
      have := ih.2 k r hw
      simp [Walk.after]; omega
    | reset k r => simp [Walk.after]
    | command k c r => simp [Walk.after]
  | .reset :: items, b => by simp [walkTo]
  | .ctrl c :: items, b => by
    by_cases hc : c = 0
    · simpa [walkTo, hc] using walkTo_ticks want tail items b
    · simp only [walkTo, if_neg hc, stopAtCommand]
      cases pinReset items <;> simp

/-- The pause lasts its ticks, and has no deadline, whatever the script holds. -/
theorem walkPause_ticks : ∀ (items : List PinItem) (n : Nat),
    (∀ k rest, walkPause items n = .reached k rest → k = n) ∧ ∀ k rest, walkPause items n ≠ .expired k rest
  | [], n => by simp [walkPause]
  | .hold l m :: items, n => by
    by_cases hn : n < m
    · simp [walkPause, hn]
    have ih := walkPause_ticks items (n - m)
    simp only [walkPause, hn, if_false]
    cases hw : walkPause items (n - m) with
    | reached k r =>
      have := ih.1 k r hw
      simp [Walk.after]; omega
    | expired k r => exact absurd hw (ih.2 k r)
    | reset k r => simp [Walk.after]
    | command k c r => simp [Walk.after]
  | .reset :: items, n => by simp [walkPause]
  | .ctrl c :: items, n => by
    by_cases hc : c = 0
    · simpa [walkPause, hc] using walkPause_ticks items n
    · simp only [walkPause, if_neg hc, stopAtCommand]
      cases pinReset items <;> simp

/-! ### A host input in the script -/

/-- Where a walk ends that finds a host input after `n` ticks: at a command, with the reset input if that stands at the
same tick (R206). -/
def Walk.stoppedBy (n : Nat) (after : List PinItem) : PinItem → Walk
  | .ctrl c => (stopAtCommand c after).after n
  | .reset => .reset n after
  | .hold _ _ => .reached n after

@[simp] theorem after_stoppedBy (k n : Nat) (rest : List PinItem) (e : PinItem) :
    (Walk.stoppedBy n rest e).after k = .stoppedBy (k + n) rest e := by
  cases e with
  | ctrl c =>
    simp only [Walk.stoppedBy, stopAtCommand]
    cases pinReset rest <;> simp [Walk.after]
  | reset => rfl
  | hold l m => rfl

/-- A walk at a host input. -/
theorem walk_event {e : PinItem} (he : e.isEvent = true) (want tail : Level) (rest : List PinItem) (n : Nat) :
    walkTo want tail (e :: rest) n = .stoppedBy 0 rest e ∧ walkPause (e :: rest) n = .stoppedBy 0 rest e := by
  cases e with
  | hold l m => cases he
  | reset => exact ⟨rfl, rfl⟩
  | ctrl c =>
    have hc : c ≠ 0 := by simpa [PinItem.isEvent] using he
    have stop : Walk.stoppedBy 0 rest (.ctrl c) = stopAtCommand c rest := by
      simp only [Walk.stoppedBy, stopAtCommand]
      cases pinReset rest <;> rfl
    exact ⟨by rw [walkTo, if_neg hc, stop], by rw [walkPause, if_neg hc, stop]⟩

/-- What is left of a waveform before a host input, `n` ticks on. -/
structure Remains (tail : Level) (before left : List PinItem) (n : Nat) : Prop where
  free : eventFree left = true
  ticks : n + holdTicks left = holdTicks before
  level : ∀ x, levelAt tail left x = levelAt tail before (n + x)

theorem Remains.hold {tail l : Level} {m n : Nat} {before left : List PinItem} (h : Remains tail before left n) :
    Remains tail (.hold l m :: before) left (m + n) :=
  ⟨h.free, by simp only [holdTicks, ← h.ticks]; omega, fun x => by rw [h.level, Nat.add_assoc, levelAt_hold_add]⟩

/-- The pause meets a host input that comes no later than its end, and otherwise leaves it in the script (R106). -/
theorem walkPause_event {e : PinItem} (he : e.isEvent = true) (tail : Level) (rest : List PinItem) :
    ∀ (before : List PinItem) (n : Nat), eventFree before = true →
      (holdTicks before ≤ n ∧ walkPause (before ++ e :: rest) n = .stoppedBy (holdTicks before) rest e) ∨
      (n < holdTicks before ∧ ∃ left, walkPause (before ++ e :: rest) n = .reached n (left ++ e :: rest) ∧
        Remains tail before left n)
  | [], n, _ => .inl ⟨Nat.zero_le n, (walk_event he .low tail rest n).2⟩
  | .hold l m :: before, n, h => by
    have hf := (eventFree_cons.mp h).2
    by_cases hn : n < m
    · refine .inr ⟨by simp only [holdTicks]; omega, .hold l (m - n) :: before, by simp [walkPause, hn],
        by simpa [eventFree_cons, PinItem.isEvent] using hf, by simp only [holdTicks]; omega, levelAt_hold_sub hn⟩
    · rcases walkPause_event he tail rest before (n - m) hf with ⟨h1, h2⟩ | ⟨h1, left, h2, h3⟩
      · refine .inl ⟨by simp only [holdTicks]; omega, ?_⟩
        simp only [List.cons_append, walkPause, if_neg hn, h2, after_stoppedBy, holdTicks]
      · have e' : m + (n - m) = n := by omega
        refine .inr ⟨by simp only [holdTicks]; omega, left, ?_, e' ▸ h3.hold⟩
        simp only [List.cons_append, walkPause, if_neg hn, h2, after_reached, e']
  | .reset :: _, _, h => by simp [eventFree_cons, PinItem.isEvent] at h
  | .ctrl c :: before, n, h => by
    obtain ⟨hc, hf⟩ := eventFree_cons.mp h
    have hc0 : c = 0 := by simpa [PinItem.isEvent] using hc
    subst hc0
    rcases walkPause_event he tail rest before n hf with ⟨h1, h2⟩ | ⟨h1, left, h2, h3⟩
    · exact .inl ⟨h1, h2⟩
    · exact .inr ⟨h1, left, h2, h3.free, h3.ticks, h3.level⟩

/-- A walk meets a host input that comes no later than its deadline, unless the pin reads the level first (R100). -/
theorem walkTo_event {e : PinItem} (he : e.isEvent = true) (want tail : Level) (rest : List PinItem) :
    ∀ (before : List PinItem) (budget : Nat), eventFree before = true → holdTicks before ≤ budget →
      ((∀ x, x < holdTicks before → levelAt tail before x ≠ want) ∧
        walkTo want tail (before ++ e :: rest) budget = .stoppedBy (holdTicks before) rest e) ∨
      (∃ n left, n < holdTicks before ∧ levelAt tail before n = want ∧
        walkTo want tail (before ++ e :: rest) budget = .reached n (left ++ e :: rest) ∧ Remains tail before left n)
  | [], b, _, _ => .inl ⟨fun x hx => absurd hx (Nat.not_lt_zero x), (walk_event he want tail rest b).1⟩
  | .hold l m :: before, b, h, hb => by
    have hf := (eventFree_cons.mp h).2
    simp only [holdTicks] at hb
    by_cases hm : m = 0
    · subst hm
      rcases walkTo_event he want tail rest before b hf (by omega) with ⟨h1, h2⟩ | ⟨n, left, h1, h2, h3, h4⟩
      · exact .inl ⟨by simpa [holdTicks, levelAt] using h1, by simpa [walkTo, holdTicks] using h2⟩
      · refine .inr ⟨n, left, by simpa [holdTicks] using h1, by simpa [levelAt] using h2, by simpa [walkTo] using h3, ?_⟩
        simpa using h4.hold (l := l) (m := 0)
    by_cases hl : l = want
    · exact .inr ⟨0, .hold l m :: before, by simp only [holdTicks]; omega,
        by simp [levelAt, Nat.pos_of_ne_zero hm, hl], by simp [walkTo, hm, hl], h, Nat.zero_add _, by simp⟩
    have hbm : ¬ b < m := by omega
    rcases walkTo_event he want tail rest before (b - m) hf (by omega) with ⟨h1, h2⟩ | ⟨n, left, h1, h2, h3, h4⟩
    · refine .inl ⟨fun x hx => ?_, ?_⟩
      · simp only [levelAt]
        split
        · exact hl
        · exact h1 _ (by simp only [holdTicks] at hx; omega)
      · simp only [List.cons_append, walkTo, if_neg hm, if_neg hl, if_neg hbm, h2, after_stoppedBy, holdTicks]
    · exact .inr ⟨m + n, left, by simp only [holdTicks]; omega, by rw [levelAt_hold_add]; exact h2,
        by simp only [List.cons_append, walkTo, if_neg hm, if_neg hl, if_neg hbm, h3, after_reached], h4.hold⟩
  | .reset :: _, _, h, _ => by simp [eventFree_cons, PinItem.isEvent] at h
  | .ctrl c :: before, b, h, hb => by
    obtain ⟨hc, hf⟩ := eventFree_cons.mp h
    have hc0 : c = 0 := by simpa [PinItem.isEvent] using hc
    subst hc0
    rcases walkTo_event he want tail rest before b hf hb with ⟨h1, h2⟩ | ⟨n, left, h1, h2, h3, h4⟩
    · exact .inl ⟨h1, h2⟩
    · exact .inr ⟨n, left, h1, h2, h3, h4.free, h4.ticks, h4.level⟩

theorem eventFree_append {a b : List PinItem} :
    eventFree (a ++ b) = true ↔ eventFree a = true ∧ eventFree b = true := by
  simp [eventFree]

theorem holdTicks_append (a b : List PinItem) : holdTicks (a ++ b) = holdTicks a + holdTicks b := by
  induction a with
  | nil => simp [holdTicks]
  | cons x a ih => cases x <;> simp [holdTicks, ih, Nat.add_assoc]

/-- Items of no ticks at the end of a waveform do not change it before its end. -/
theorem levelAt_append {tail : Level} {before pre : List PinItem} : ∀ {x : Nat}, x < holdTicks before →
    levelAt tail (before ++ pre) x = levelAt tail before x := by
  induction before with
  | nil => intro x hx; cases hx
  | cons y before ih =>
    intro x hx
    cases y with
    | hold l m =>
      simp only [holdTicks] at hx
      simp only [List.cons_append, levelAt]
      split
      · rfl
      · exact ih (by omega)
    | reset => exact ih hx
    | ctrl c => exact ih hx

/-- Where a reset input stands at the tick at which a script begins, the first host input of that tick stops every walk
with the reset (R206). -/
theorem pinReset_split {items rest : List PinItem} (h : pinReset items = some rest) :
    ∃ pre e left, items = pre ++ e :: left ∧ eventFree pre = true ∧ holdTicks pre = 0 ∧ e.isEvent = true ∧
      ∀ n, Walk.stoppedBy n left e = .reset n rest := by
  induction items with
  | nil => cases h
  | cons x items ih =>
    cases x with
    | hold l n =>
      by_cases hn : n = 0
      · simp only [pinReset, if_pos hn] at h
        obtain ⟨pre, e, left, h1, h2, h3, h4, h5⟩ := ih h
        refine ⟨.hold l n :: pre, e, left, by rw [h1]; rfl, ?_, by simp only [holdTicks, h3, hn], h4, h5⟩
        simpa [eventFree_cons, PinItem.isEvent] using h2
      · simp [pinReset, hn] at h
    | ctrl c =>
      simp only [pinReset] at h
      by_cases hc : c = 0
      · obtain ⟨pre, e, left, h1, h2, h3, h4, h5⟩ := ih h
        refine ⟨.ctrl c :: pre, e, left, by rw [h1]; rfl, ?_, h3, h4, h5⟩
        simpa [eventFree_cons, PinItem.isEvent, hc] using h2
      · exact ⟨[], .ctrl c, items, rfl, rfl, rfl, by simpa [PinItem.isEvent] using hc,
          fun n => by simp [Walk.stoppedBy, stopAtCommand, h, Walk.after]⟩
    | reset =>
      cases h
      exact ⟨[], .reset, _, rfl, rfl, rfl, rfl, fun _ => rfl⟩

/-- A NOP before a result or a command takes no time in a measurement (log 5). -/
theorem drawStream_nops (n : Nat) (items : List StreamItem) :
    drawStream (List.replicate n (.ctrl 0) ++ items) = drawStream items := by
  induction n with
  | zero => rfl
  | succ n ih => simpa [List.replicate_succ, drawStream] using ih

/-- Items of one tick with no reset input among them: commands, and holds of no ticks. -/
theorem pinReset_append {now : List PinItem} (rest : List PinItem) (h : holdTicks now = 0) (hr : .reset ∉ now) :
    pinReset (now ++ rest) = pinReset rest := by
  induction now with
  | nil => rfl
  | cons x now ih =>
    have hr' : PinItem.reset ∉ now := fun hm => hr (List.mem_cons_of_mem _ hm)
    cases x with
    | hold l n =>
      simp only [holdTicks] at h
      simp only [List.cons_append, pinReset, if_pos (show n = 0 by omega)]
      exact ih (by omega) hr'
    | ctrl c => exact ih h hr'
    | reset => exact absurd (List.mem_cons_self) hr

/-- A reset input at the current tick is what the step finds, whatever commands stand at that tick before it (R206). -/
theorem takePin_reset {items rest : List PinItem} (h : pinReset items = some rest) :
    takePin items = some (.reset, rest) := by
  induction items with
  | nil => cases h
  | cons x items ih =>
    cases x with
    | hold l n =>
      by_cases hn : n = 0
      · simp only [pinReset, if_pos hn] at h
        simp only [takePin, if_pos hn]
        exact ih h
      · simp [pinReset, hn] at h
    | ctrl c =>
      simp only [pinReset] at h
      by_cases hc : c = 0
      · simp only [takePin, if_pos hc]
        exact ih h
      · simp only [takePin, if_neg hc, h]
    | reset =>
      cases h
      rfl

/-- On a waveform alone no host input is found. -/
theorem takePin_eventFree : ∀ {items : List PinItem}, eventFree items = true → takePin items = none
  | [], _ => rfl
  | .hold l n :: items, h => by
    have ih := takePin_eventFree (eventFree_cons.mp h).2
    simp [takePin, ih]
  | .reset :: _, h => by simp [eventFree_cons, PinItem.isEvent] at h
  | .ctrl c :: items, h => by
    obtain ⟨hc, hf⟩ := eventFree_cons.mp h
    have hc0 : c = 0 := by simpa [PinItem.isEvent] using hc
    rw [takePin, if_pos hc0, takePin_eventFree hf]

end Sys2Proof.Machine
end

