-- ==== Sys2Proof/Laws/State.lean ====
section
/-! SUPPORT. One lemma per field per update of State, each true by definition, so that no later proof unfolds an
update. -/

namespace Sys2Proof.Machine

/-! ### pass -/

@[simp] theorem pass_cfg (s : State) (n : Nat) (feed : Feed) : (s.pass n feed).cfg = s.cfg := rfl
@[simp] theorem pass_st (s : State) (n : Nat) (feed : Feed) : (s.pass n feed).st = s.st := rfl
@[simp] theorem pass_i (s : State) (n : Nat) (feed : Feed) : (s.pass n feed).i = s.i := rfl
@[simp] theorem pass_prev (s : State) (n : Nat) (feed : Feed) : (s.pass n feed).prev = s.prev := rfl
@[simp] theorem pass_sender (s : State) (n : Nat) (feed : Feed) : (s.pass n feed).sender = s.sender := rfl
@[simp] theorem pass_group (s : State) (n : Nat) (feed : Feed) : (s.pass n feed).group = s.group := rfl
@[simp] theorem pass_onBit (s : State) (n : Nat) (feed : Feed) : (s.pass n feed).onBit = s.onBit := rfl
@[simp] theorem pass_recipient (s : State) (n : Nat) (feed : Feed) : (s.pass n feed).recipient = s.recipient := rfl
@[simp] theorem pass_pausePending (s : State) (n : Nat) (feed : Feed) : (s.pass n feed).pausePending = s.pausePending := rfl
@[simp] theorem pass_setupErr (s : State) (n : Nat) (feed : Feed) : (s.pass n feed).setupErr = s.setupErr := rfl
@[simp] theorem pass_recValid (s : State) (n : Nat) (feed : Feed) : (s.pass n feed).recValid = s.recValid := rfl
@[simp] theorem pass_recKind (s : State) (n : Nat) (feed : Feed) : (s.pass n feed).recKind = s.recKind := rfl
@[simp] theorem pass_recWord (s : State) (n : Nat) (feed : Feed) : (s.pass n feed).recWord = s.recWord := rfl
@[simp] theorem pass_recCause (s : State) (n : Nat) (feed : Feed) : (s.pass n feed).recCause = s.recCause := rfl
@[simp] theorem pass_now (s : State) (n : Nat) (feed : Feed) : (s.pass n feed).now = s.now + BitVec.ofNat 64 n := rfl
@[simp] theorem pass_muPhase (s : State) (n : Nat) (feed : Feed) : (s.pass n feed).muPhase = s.muPhase := rfl
@[simp] theorem pass_muT0 (s : State) (n : Nat) (feed : Feed) : (s.pass n feed).muT0 = s.muT0 := rfl
@[simp] theorem pass_muTarget (s : State) (n : Nat) (feed : Feed) : (s.pass n feed).muTarget = s.muTarget := rfl
@[simp] theorem pass_muTimeout (s : State) (n : Nat) (feed : Feed) : (s.pass n feed).muTimeout = s.muTimeout := rfl
@[simp] theorem pass_mres (s : State) (n : Nat) (feed : Feed) : (s.pass n feed).mres = s.mres := rfl
@[simp] theorem pass_mreq (s : State) (n : Nat) (feed : Feed) : (s.pass n feed).mreq = s.mreq := rfl
@[simp] theorem pass_feed (s : State) (n : Nat) (feed : Feed) : (s.pass n feed).feed = feed := rfl
@[simp] theorem pass_draws (s : State) (n : Nat) (feed : Feed) : (s.pass n feed).draws = s.draws := rfl

/-! ### waitTick -/

@[simp] theorem waitTick_cfg (s : State) : (waitTick s).cfg = s.cfg := rfl
@[simp] theorem waitTick_st (s : State) : (waitTick s).st = s.st := rfl
@[simp] theorem waitTick_i (s : State) : (waitTick s).i = s.i := rfl
@[simp] theorem waitTick_prev (s : State) : (waitTick s).prev = s.prev := rfl
@[simp] theorem waitTick_sender (s : State) : (waitTick s).sender = s.sender := rfl
@[simp] theorem waitTick_group (s : State) : (waitTick s).group = s.group := rfl
@[simp] theorem waitTick_onBit (s : State) : (waitTick s).onBit = s.onBit := rfl
@[simp] theorem waitTick_recipient (s : State) : (waitTick s).recipient = s.recipient := rfl
@[simp] theorem waitTick_pausePending (s : State) : (waitTick s).pausePending = s.pausePending := rfl
@[simp] theorem waitTick_setupErr (s : State) : (waitTick s).setupErr = s.setupErr := rfl
@[simp] theorem waitTick_recValid (s : State) : (waitTick s).recValid = s.recValid := rfl
@[simp] theorem waitTick_recKind (s : State) : (waitTick s).recKind = s.recKind := rfl
@[simp] theorem waitTick_recWord (s : State) : (waitTick s).recWord = s.recWord := rfl
@[simp] theorem waitTick_recCause (s : State) : (waitTick s).recCause = s.recCause := rfl
@[simp] theorem waitTick_now (s : State) : (waitTick s).now = s.now + 1 := rfl
@[simp] theorem waitTick_muPhase (s : State) : (waitTick s).muPhase = s.muPhase := rfl
@[simp] theorem waitTick_muT0 (s : State) : (waitTick s).muT0 = s.muT0 := rfl
@[simp] theorem waitTick_muTarget (s : State) : (waitTick s).muTarget = s.muTarget := rfl
@[simp] theorem waitTick_muTimeout (s : State) : (waitTick s).muTimeout = s.muTimeout := rfl
@[simp] theorem waitTick_mres (s : State) : (waitTick s).mres = s.mres := rfl
@[simp] theorem waitTick_mreq (s : State) : (waitTick s).mreq = s.mreq := rfl
@[simp] theorem waitTick_feed (s : State) : (waitTick s).feed = s.feed.tick := rfl
@[simp] theorem waitTick_draws (s : State) : (waitTick s).draws = s.draws := rfl

/-! ### resetBlock -/

@[simp] theorem resetBlock_cfg (s : State) : (resetBlock s).cfg = s.cfg := rfl
@[simp] theorem resetBlock_st (s : State) : (resetBlock s).st = .idle := rfl
@[simp] theorem resetBlock_i (s : State) : (resetBlock s).i = 0 := rfl
@[simp] theorem resetBlock_prev (s : State) : (resetBlock s).prev = false := rfl
@[simp] theorem resetBlock_sender (s : State) : (resetBlock s).sender = 0 := rfl
@[simp] theorem resetBlock_group (s : State) : (resetBlock s).group = false := rfl
@[simp] theorem resetBlock_onBit (s : State) : (resetBlock s).onBit = false := rfl
@[simp] theorem resetBlock_recipient (s : State) : (resetBlock s).recipient = 0 := rfl
@[simp] theorem resetBlock_pausePending (s : State) : (resetBlock s).pausePending = false := rfl
@[simp] theorem resetBlock_setupErr (s : State) : (resetBlock s).setupErr = .none := rfl
@[simp] theorem resetBlock_recValid (s : State) : (resetBlock s).recValid = false := rfl
@[simp] theorem resetBlock_recKind (s : State) : (resetBlock s).recKind = .none := rfl
@[simp] theorem resetBlock_recWord (s : State) : (resetBlock s).recWord = 0 := rfl
@[simp] theorem resetBlock_recCause (s : State) : (resetBlock s).recCause = .none := rfl
@[simp] theorem resetBlock_now (s : State) : (resetBlock s).now = s.now := rfl
@[simp] theorem resetBlock_muPhase (s : State) : (resetBlock s).muPhase = .idle := rfl
@[simp] theorem resetBlock_muT0 (s : State) : (resetBlock s).muT0 = 0 := rfl
@[simp] theorem resetBlock_muTarget (s : State) : (resetBlock s).muTarget = .low := rfl
@[simp] theorem resetBlock_muTimeout (s : State) : (resetBlock s).muTimeout = 0 := rfl
@[simp] theorem resetBlock_mres (s : State) : (resetBlock s).mres = 0 := rfl
@[simp] theorem resetBlock_mreq (s : State) : (resetBlock s).mreq = none := rfl
@[simp] theorem resetBlock_feed (s : State) : (resetBlock s).feed = s.feed := rfl
@[simp] theorem resetBlock_draws (s : State) : (resetBlock s).draws = s.draws := rfl

/-! ### muBegin -/

@[simp] theorem muBegin_cfg (lvl : Level) (pz : Bool) (tmo : BitVec 30) (s : State) : (muBegin lvl pz tmo s).cfg = s.cfg := rfl
@[simp] theorem muBegin_st (lvl : Level) (pz : Bool) (tmo : BitVec 30) (s : State) : (muBegin lvl pz tmo s).st = s.st := rfl
@[simp] theorem muBegin_i (lvl : Level) (pz : Bool) (tmo : BitVec 30) (s : State) : (muBegin lvl pz tmo s).i = s.i := rfl
@[simp] theorem muBegin_prev (lvl : Level) (pz : Bool) (tmo : BitVec 30) (s : State) : (muBegin lvl pz tmo s).prev = s.prev := rfl
@[simp] theorem muBegin_sender (lvl : Level) (pz : Bool) (tmo : BitVec 30) (s : State) : (muBegin lvl pz tmo s).sender = s.sender := rfl
@[simp] theorem muBegin_group (lvl : Level) (pz : Bool) (tmo : BitVec 30) (s : State) : (muBegin lvl pz tmo s).group = s.group := rfl
@[simp] theorem muBegin_onBit (lvl : Level) (pz : Bool) (tmo : BitVec 30) (s : State) : (muBegin lvl pz tmo s).onBit = s.onBit := rfl
@[simp] theorem muBegin_recipient (lvl : Level) (pz : Bool) (tmo : BitVec 30) (s : State) : (muBegin lvl pz tmo s).recipient = s.recipient := rfl
@[simp] theorem muBegin_pausePending (lvl : Level) (pz : Bool) (tmo : BitVec 30) (s : State) : (muBegin lvl pz tmo s).pausePending = s.pausePending := rfl
@[simp] theorem muBegin_setupErr (lvl : Level) (pz : Bool) (tmo : BitVec 30) (s : State) : (muBegin lvl pz tmo s).setupErr = s.setupErr := rfl
@[simp] theorem muBegin_recValid (lvl : Level) (pz : Bool) (tmo : BitVec 30) (s : State) : (muBegin lvl pz tmo s).recValid = s.recValid := rfl
@[simp] theorem muBegin_recKind (lvl : Level) (pz : Bool) (tmo : BitVec 30) (s : State) : (muBegin lvl pz tmo s).recKind = s.recKind := rfl
@[simp] theorem muBegin_recWord (lvl : Level) (pz : Bool) (tmo : BitVec 30) (s : State) : (muBegin lvl pz tmo s).recWord = s.recWord := rfl
@[simp] theorem muBegin_recCause (lvl : Level) (pz : Bool) (tmo : BitVec 30) (s : State) : (muBegin lvl pz tmo s).recCause = s.recCause := rfl
@[simp] theorem muBegin_now (lvl : Level) (pz : Bool) (tmo : BitVec 30) (s : State) : (muBegin lvl pz tmo s).now = s.now := rfl
@[simp] theorem muBegin_muPhase (lvl : Level) (pz : Bool) (tmo : BitVec 30) (s : State) : (muBegin lvl pz tmo s).muPhase = if pz then .pause else .phase1 := rfl
@[simp] theorem muBegin_muT0 (lvl : Level) (pz : Bool) (tmo : BitVec 30) (s : State) : (muBegin lvl pz tmo s).muT0 = s.muT0 := rfl
@[simp] theorem muBegin_muTarget (lvl : Level) (pz : Bool) (tmo : BitVec 30) (s : State) : (muBegin lvl pz tmo s).muTarget = lvl := rfl
@[simp] theorem muBegin_muTimeout (lvl : Level) (pz : Bool) (tmo : BitVec 30) (s : State) : (muBegin lvl pz tmo s).muTimeout = tmo := rfl
@[simp] theorem muBegin_mres (lvl : Level) (pz : Bool) (tmo : BitVec 30) (s : State) : (muBegin lvl pz tmo s).mres = s.mres := rfl
@[simp] theorem muBegin_mreq (lvl : Level) (pz : Bool) (tmo : BitVec 30) (s : State) : (muBegin lvl pz tmo s).mreq = s.mreq := rfl
@[simp] theorem muBegin_feed (lvl : Level) (pz : Bool) (tmo : BitVec 30) (s : State) : (muBegin lvl pz tmo s).feed = s.feed := rfl
@[simp] theorem muBegin_draws (lvl : Level) (pz : Bool) (tmo : BitVec 30) (s : State) : (muBegin lvl pz tmo s).draws = s.draws := rfl

/-! ### muReturn -/

@[simp] theorem muReturn_cfg (r : MresWord) (s : State) : (muReturn r s).cfg = s.cfg := rfl
@[simp] theorem muReturn_st (r : MresWord) (s : State) : (muReturn r s).st = s.st := rfl
@[simp] theorem muReturn_i (r : MresWord) (s : State) : (muReturn r s).i = s.i := rfl
@[simp] theorem muReturn_prev (r : MresWord) (s : State) : (muReturn r s).prev = s.prev := rfl
@[simp] theorem muReturn_sender (r : MresWord) (s : State) : (muReturn r s).sender = s.sender := rfl
@[simp] theorem muReturn_group (r : MresWord) (s : State) : (muReturn r s).group = s.group := rfl
@[simp] theorem muReturn_onBit (r : MresWord) (s : State) : (muReturn r s).onBit = s.onBit := rfl
@[simp] theorem muReturn_recipient (r : MresWord) (s : State) : (muReturn r s).recipient = s.recipient := rfl
@[simp] theorem muReturn_pausePending (r : MresWord) (s : State) : (muReturn r s).pausePending = s.pausePending := rfl
@[simp] theorem muReturn_setupErr (r : MresWord) (s : State) : (muReturn r s).setupErr = s.setupErr := rfl
@[simp] theorem muReturn_recValid (r : MresWord) (s : State) : (muReturn r s).recValid = s.recValid := rfl
@[simp] theorem muReturn_recKind (r : MresWord) (s : State) : (muReturn r s).recKind = s.recKind := rfl
@[simp] theorem muReturn_recWord (r : MresWord) (s : State) : (muReturn r s).recWord = s.recWord := rfl
@[simp] theorem muReturn_recCause (r : MresWord) (s : State) : (muReturn r s).recCause = s.recCause := rfl
@[simp] theorem muReturn_now (r : MresWord) (s : State) : (muReturn r s).now = s.now := rfl
@[simp] theorem muReturn_muPhase (r : MresWord) (s : State) : (muReturn r s).muPhase = .idle := rfl
@[simp] theorem muReturn_muT0 (r : MresWord) (s : State) : (muReturn r s).muT0 = s.muT0 := rfl
@[simp] theorem muReturn_muTarget (r : MresWord) (s : State) : (muReturn r s).muTarget = s.muTarget := rfl
@[simp] theorem muReturn_muTimeout (r : MresWord) (s : State) : (muReturn r s).muTimeout = s.muTimeout := rfl
@[simp] theorem muReturn_mres (r : MresWord) (s : State) : (muReturn r s).mres = r := rfl
@[simp] theorem muReturn_mreq (r : MresWord) (s : State) : (muReturn r s).mreq = s.mreq := rfl
@[simp] theorem muReturn_feed (r : MresWord) (s : State) : (muReturn r s).feed = s.feed := rfl
@[simp] theorem muReturn_draws (r : MresWord) (s : State) : (muReturn r s).draws = s.draws := rfl

/-! ### stepDefaults -/

@[simp] theorem stepDefaults_cfg (s : State) : (stepDefaults s).cfg = s.cfg := rfl
@[simp] theorem stepDefaults_st (s : State) : (stepDefaults s).st = s.st := rfl
@[simp] theorem stepDefaults_i (s : State) : (stepDefaults s).i = s.i := rfl
@[simp] theorem stepDefaults_prev (s : State) : (stepDefaults s).prev = s.prev := rfl
@[simp] theorem stepDefaults_sender (s : State) : (stepDefaults s).sender = s.sender := rfl
@[simp] theorem stepDefaults_group (s : State) : (stepDefaults s).group = s.group := rfl
@[simp] theorem stepDefaults_onBit (s : State) : (stepDefaults s).onBit = s.onBit := rfl
@[simp] theorem stepDefaults_recipient (s : State) : (stepDefaults s).recipient = s.recipient := rfl
@[simp] theorem stepDefaults_pausePending (s : State) : (stepDefaults s).pausePending = false := rfl
@[simp] theorem stepDefaults_setupErr (s : State) : (stepDefaults s).setupErr = s.setupErr := rfl
@[simp] theorem stepDefaults_recValid (s : State) : (stepDefaults s).recValid = false := rfl
@[simp] theorem stepDefaults_recKind (s : State) : (stepDefaults s).recKind = s.recKind := rfl
@[simp] theorem stepDefaults_recWord (s : State) : (stepDefaults s).recWord = s.recWord := rfl
@[simp] theorem stepDefaults_recCause (s : State) : (stepDefaults s).recCause = s.recCause := rfl
@[simp] theorem stepDefaults_now (s : State) : (stepDefaults s).now = s.now := rfl
@[simp] theorem stepDefaults_muPhase (s : State) : (stepDefaults s).muPhase = s.muPhase := rfl
@[simp] theorem stepDefaults_muT0 (s : State) : (stepDefaults s).muT0 = s.muT0 := rfl
@[simp] theorem stepDefaults_muTarget (s : State) : (stepDefaults s).muTarget = s.muTarget := rfl
@[simp] theorem stepDefaults_muTimeout (s : State) : (stepDefaults s).muTimeout = s.muTimeout := rfl
@[simp] theorem stepDefaults_mres (s : State) : (stepDefaults s).mres = s.mres := rfl
@[simp] theorem stepDefaults_mreq (s : State) : (stepDefaults s).mreq = s.mreq := rfl
@[simp] theorem stepDefaults_feed (s : State) : (stepDefaults s).feed = s.feed := rfl
@[simp] theorem stepDefaults_draws (s : State) : (stepDefaults s).draws = s.draws := rfl

/-! ### emit -/

@[simp] theorem emit_cfg (k : RecKind) (c : Cause) (w : RecWord) (s : State) : (emit k c w s).cfg = s.cfg := rfl
@[simp] theorem emit_st (k : RecKind) (c : Cause) (w : RecWord) (s : State) : (emit k c w s).st = s.st := rfl
@[simp] theorem emit_i (k : RecKind) (c : Cause) (w : RecWord) (s : State) : (emit k c w s).i = s.i := rfl
@[simp] theorem emit_prev (k : RecKind) (c : Cause) (w : RecWord) (s : State) : (emit k c w s).prev = s.prev := rfl
@[simp] theorem emit_sender (k : RecKind) (c : Cause) (w : RecWord) (s : State) : (emit k c w s).sender = s.sender := rfl
@[simp] theorem emit_group (k : RecKind) (c : Cause) (w : RecWord) (s : State) : (emit k c w s).group = s.group := rfl
@[simp] theorem emit_onBit (k : RecKind) (c : Cause) (w : RecWord) (s : State) : (emit k c w s).onBit = s.onBit := rfl
@[simp] theorem emit_recipient (k : RecKind) (c : Cause) (w : RecWord) (s : State) : (emit k c w s).recipient = s.recipient := rfl
@[simp] theorem emit_pausePending (k : RecKind) (c : Cause) (w : RecWord) (s : State) : (emit k c w s).pausePending = s.pausePending := rfl
@[simp] theorem emit_setupErr (k : RecKind) (c : Cause) (w : RecWord) (s : State) : (emit k c w s).setupErr = s.setupErr := rfl
@[simp] theorem emit_recValid (k : RecKind) (c : Cause) (w : RecWord) (s : State) : (emit k c w s).recValid = true := rfl
@[simp] theorem emit_recKind (k : RecKind) (c : Cause) (w : RecWord) (s : State) : (emit k c w s).recKind = k := rfl
@[simp] theorem emit_recWord (k : RecKind) (c : Cause) (w : RecWord) (s : State) : (emit k c w s).recWord = w := rfl
@[simp] theorem emit_recCause (k : RecKind) (c : Cause) (w : RecWord) (s : State) : (emit k c w s).recCause = c := rfl
@[simp] theorem emit_now (k : RecKind) (c : Cause) (w : RecWord) (s : State) : (emit k c w s).now = s.now := rfl
@[simp] theorem emit_muPhase (k : RecKind) (c : Cause) (w : RecWord) (s : State) : (emit k c w s).muPhase = s.muPhase := rfl
@[simp] theorem emit_muT0 (k : RecKind) (c : Cause) (w : RecWord) (s : State) : (emit k c w s).muT0 = s.muT0 := rfl
@[simp] theorem emit_muTarget (k : RecKind) (c : Cause) (w : RecWord) (s : State) : (emit k c w s).muTarget = s.muTarget := rfl
@[simp] theorem emit_muTimeout (k : RecKind) (c : Cause) (w : RecWord) (s : State) : (emit k c w s).muTimeout = s.muTimeout := rfl
@[simp] theorem emit_mres (k : RecKind) (c : Cause) (w : RecWord) (s : State) : (emit k c w s).mres = s.mres := rfl
@[simp] theorem emit_mreq (k : RecKind) (c : Cause) (w : RecWord) (s : State) : (emit k c w s).mreq = s.mreq := rfl
@[simp] theorem emit_feed (k : RecKind) (c : Cause) (w : RecWord) (s : State) : (emit k c w s).feed = s.feed := rfl
@[simp] theorem emit_draws (k : RecKind) (c : Cause) (w : RecWord) (s : State) : (emit k c w s).draws = s.draws := rfl

/-! ### frameAbort -/

@[simp] theorem frameAbort_cfg (k : RecKind) (c : Cause) (s : State) : (frameAbort k c s).cfg = s.cfg := rfl
@[simp] theorem frameAbort_st (k : RecKind) (c : Cause) (s : State) : (frameAbort k c s).st = .seek := rfl
@[simp] theorem frameAbort_i (k : RecKind) (c : Cause) (s : State) : (frameAbort k c s).i = 0 := rfl
@[simp] theorem frameAbort_prev (k : RecKind) (c : Cause) (s : State) : (frameAbort k c s).prev = s.prev := rfl
@[simp] theorem frameAbort_sender (k : RecKind) (c : Cause) (s : State) : (frameAbort k c s).sender = s.sender := rfl
@[simp] theorem frameAbort_group (k : RecKind) (c : Cause) (s : State) : (frameAbort k c s).group = s.group := rfl
@[simp] theorem frameAbort_onBit (k : RecKind) (c : Cause) (s : State) : (frameAbort k c s).onBit = s.onBit := rfl
@[simp] theorem frameAbort_recipient (k : RecKind) (c : Cause) (s : State) : (frameAbort k c s).recipient = s.recipient := rfl
@[simp] theorem frameAbort_pausePending (k : RecKind) (c : Cause) (s : State) : (frameAbort k c s).pausePending = true := rfl
@[simp] theorem frameAbort_setupErr (k : RecKind) (c : Cause) (s : State) : (frameAbort k c s).setupErr = s.setupErr := rfl
@[simp] theorem frameAbort_recValid (k : RecKind) (c : Cause) (s : State) : (frameAbort k c s).recValid = true := rfl
@[simp] theorem frameAbort_recKind (k : RecKind) (c : Cause) (s : State) : (frameAbort k c s).recKind = k := rfl
@[simp] theorem frameAbort_recWord (k : RecKind) (c : Cause) (s : State) : (frameAbort k c s).recWord = s.pack := rfl
@[simp] theorem frameAbort_recCause (k : RecKind) (c : Cause) (s : State) : (frameAbort k c s).recCause = c := rfl
@[simp] theorem frameAbort_now (k : RecKind) (c : Cause) (s : State) : (frameAbort k c s).now = s.now := rfl
@[simp] theorem frameAbort_muPhase (k : RecKind) (c : Cause) (s : State) : (frameAbort k c s).muPhase = s.muPhase := rfl
@[simp] theorem frameAbort_muT0 (k : RecKind) (c : Cause) (s : State) : (frameAbort k c s).muT0 = s.muT0 := rfl
@[simp] theorem frameAbort_muTarget (k : RecKind) (c : Cause) (s : State) : (frameAbort k c s).muTarget = s.muTarget := rfl
@[simp] theorem frameAbort_muTimeout (k : RecKind) (c : Cause) (s : State) : (frameAbort k c s).muTimeout = s.muTimeout := rfl
@[simp] theorem frameAbort_mres (k : RecKind) (c : Cause) (s : State) : (frameAbort k c s).mres = s.mres := rfl
@[simp] theorem frameAbort_mreq (k : RecKind) (c : Cause) (s : State) : (frameAbort k c s).mreq = s.mreq := rfl
@[simp] theorem frameAbort_feed (k : RecKind) (c : Cause) (s : State) : (frameAbort k c s).feed = s.feed := rfl
@[simp] theorem frameAbort_draws (k : RecKind) (c : Cause) (s : State) : (frameAbort k c s).draws = s.draws := rfl

/-! ### recordSetupFailure -/

@[simp] theorem recordSetupFailure_cfg (e : SetupErr) (s : State) : (recordSetupFailure e s).cfg = s.cfg := rfl
@[simp] theorem recordSetupFailure_st (e : SetupErr) (s : State) : (recordSetupFailure e s).st = s.st := rfl
@[simp] theorem recordSetupFailure_i (e : SetupErr) (s : State) : (recordSetupFailure e s).i = s.i := rfl
@[simp] theorem recordSetupFailure_prev (e : SetupErr) (s : State) : (recordSetupFailure e s).prev = s.prev := rfl
@[simp] theorem recordSetupFailure_sender (e : SetupErr) (s : State) : (recordSetupFailure e s).sender = s.sender := rfl
@[simp] theorem recordSetupFailure_group (e : SetupErr) (s : State) : (recordSetupFailure e s).group = s.group := rfl
@[simp] theorem recordSetupFailure_onBit (e : SetupErr) (s : State) : (recordSetupFailure e s).onBit = s.onBit := rfl
@[simp] theorem recordSetupFailure_recipient (e : SetupErr) (s : State) : (recordSetupFailure e s).recipient = s.recipient := rfl
@[simp] theorem recordSetupFailure_pausePending (e : SetupErr) (s : State) : (recordSetupFailure e s).pausePending = s.pausePending := rfl
@[simp] theorem recordSetupFailure_setupErr (e : SetupErr) (s : State) : (recordSetupFailure e s).setupErr = e := rfl
@[simp] theorem recordSetupFailure_recValid (e : SetupErr) (s : State) : (recordSetupFailure e s).recValid = false := rfl
@[simp] theorem recordSetupFailure_recKind (e : SetupErr) (s : State) : (recordSetupFailure e s).recKind = s.recKind := rfl
@[simp] theorem recordSetupFailure_recWord (e : SetupErr) (s : State) : (recordSetupFailure e s).recWord = s.recWord := rfl
@[simp] theorem recordSetupFailure_recCause (e : SetupErr) (s : State) : (recordSetupFailure e s).recCause = s.recCause := rfl
@[simp] theorem recordSetupFailure_now (e : SetupErr) (s : State) : (recordSetupFailure e s).now = s.now := rfl
@[simp] theorem recordSetupFailure_muPhase (e : SetupErr) (s : State) : (recordSetupFailure e s).muPhase = s.muPhase := rfl
@[simp] theorem recordSetupFailure_muT0 (e : SetupErr) (s : State) : (recordSetupFailure e s).muT0 = s.muT0 := rfl
@[simp] theorem recordSetupFailure_muTarget (e : SetupErr) (s : State) : (recordSetupFailure e s).muTarget = s.muTarget := rfl
@[simp] theorem recordSetupFailure_muTimeout (e : SetupErr) (s : State) : (recordSetupFailure e s).muTimeout = s.muTimeout := rfl
@[simp] theorem recordSetupFailure_mres (e : SetupErr) (s : State) : (recordSetupFailure e s).mres = s.mres := rfl
@[simp] theorem recordSetupFailure_mreq (e : SetupErr) (s : State) : (recordSetupFailure e s).mreq = s.mreq := rfl
@[simp] theorem recordSetupFailure_feed (e : SetupErr) (s : State) : (recordSetupFailure e s).feed = s.feed := rfl
@[simp] theorem recordSetupFailure_draws (e : SetupErr) (s : State) : (recordSetupFailure e s).draws = s.draws := rfl

/-! ### advance -/

@[simp] theorem advance_cfg (f : SelFields) (s : State) : (advance f s).cfg = s.cfg := rfl
@[simp] theorem advance_st (f : SelFields) (s : State) : (advance f s).st = s.st := rfl
@[simp] theorem advance_i (f : SelFields) (s : State) : (advance f s).i = s.i + 1 := rfl
@[simp] theorem advance_prev (f : SelFields) (s : State) : (advance f s).prev = symbolBit f := rfl
@[simp] theorem advance_sender (f : SelFields) (s : State) : (advance f s).sender = s.sender := rfl
@[simp] theorem advance_group (f : SelFields) (s : State) : (advance f s).group = s.group := rfl
@[simp] theorem advance_onBit (f : SelFields) (s : State) : (advance f s).onBit = s.onBit := rfl
@[simp] theorem advance_recipient (f : SelFields) (s : State) : (advance f s).recipient = s.recipient := rfl
@[simp] theorem advance_pausePending (f : SelFields) (s : State) : (advance f s).pausePending = s.pausePending := rfl
@[simp] theorem advance_setupErr (f : SelFields) (s : State) : (advance f s).setupErr = s.setupErr := rfl
@[simp] theorem advance_recValid (f : SelFields) (s : State) : (advance f s).recValid = s.recValid := rfl
@[simp] theorem advance_recKind (f : SelFields) (s : State) : (advance f s).recKind = s.recKind := rfl
@[simp] theorem advance_recWord (f : SelFields) (s : State) : (advance f s).recWord = s.recWord := rfl
@[simp] theorem advance_recCause (f : SelFields) (s : State) : (advance f s).recCause = s.recCause := rfl
@[simp] theorem advance_now (f : SelFields) (s : State) : (advance f s).now = s.now := rfl
@[simp] theorem advance_muPhase (f : SelFields) (s : State) : (advance f s).muPhase = s.muPhase := rfl
@[simp] theorem advance_muT0 (f : SelFields) (s : State) : (advance f s).muT0 = s.muT0 := rfl
@[simp] theorem advance_muTarget (f : SelFields) (s : State) : (advance f s).muTarget = s.muTarget := rfl
@[simp] theorem advance_muTimeout (f : SelFields) (s : State) : (advance f s).muTimeout = s.muTimeout := rfl
@[simp] theorem advance_mres (f : SelFields) (s : State) : (advance f s).mres = s.mres := rfl
@[simp] theorem advance_mreq (f : SelFields) (s : State) : (advance f s).mreq = s.mreq := rfl
@[simp] theorem advance_feed (f : SelFields) (s : State) : (advance f s).feed = s.feed := rfl
@[simp] theorem advance_draws (f : SelFields) (s : State) : (advance f s).draws = s.draws := rfl

end Sys2Proof.Machine
end

