-- ==== Sys2Proof/Laws/Words.lean ====
section
/-! SUPPORT. The words of `Operands.lean` and `Decode.lean` read back: MRES (R70), MREQ (R71), and the bit of a
symbol class (R72). -/

namespace Sys2Proof.Machine

@[simp] theorem mresTimeout_timeoutWord : mresTimeout timeoutWord = true := rfl

/-- A duration's word has `TO` 0. -/
@[simp] theorem mresTimeout_durationWord (d : Nat) : mresTimeout (durationWord d) = false := by
  simp [mresTimeout, durationWord]

/-- A duration of 31 bits reads back. -/
theorem mresDuration_durationWord {d : Nat} (h : d < 2 ^ 31) : mresDuration (durationWord d) = d := by
  simp only [mresDuration, durationWord, BitVec.extractLsb'_toNat, BitVec.toNat_setWidth, BitVec.toNat_ofNat]
  omega

theorem mreqLevel_encode (lvl : Level) (pz : Bool) (tmo : BitVec 30) : mreqLevel (encodeMreq lvl pz tmo) = lvl := by
  have h : BitVec.getLsbD (BitVec.ofBool lvl.bit ++ BitVec.ofBool pz ++ tmo) 31 = lvl.bit := by
    simp only [BitVec.getLsbD_append]; simp
  have h' : mreqLevel (encodeMreq lvl pz tmo) = Level.ofBit lvl.bit := congrArg Level.ofBit h
  rw [h']; cases lvl <;> rfl

theorem mreqPause_encode (lvl : Level) (pz : Bool) (tmo : BitVec 30) : mreqPause (encodeMreq lvl pz tmo) = pz := by
  have h : BitVec.getLsbD (BitVec.ofBool lvl.bit ++ BitVec.ofBool pz ++ tmo) 30 = pz := by
    simp only [BitVec.getLsbD_append]; simp
  exact h

theorem mreqTimeout_encode (lvl : Level) (pz : Bool) (tmo : BitVec 30) :
    mreqTimeout (encodeMreq lvl pz tmo) = tmo := by
  have h : BitVec.extractLsb' 0 30 (BitVec.ofBool lvl.bit ++ BitVec.ofBool pz ++ tmo) = tmo :=
    BitVec.extractLsb'_append_eq_right
  exact h

/-- The DU's measurement, with the fields of its request read (R108). -/
theorem duMeasure_eq (s : State) : duMeasure s = muMeasure .low s.pausePending s.cfg.measureTimeoutUs s := by
  simp only [duMeasure, duRequest, mreqLevel_encode, mreqPause_encode, mreqTimeout_encode, Config.measureLevel]

/-- `CLS[1]` is 1 exactly for an Invalid class (R72). -/
@[simp] theorem selFields_invalid (s : State) :
    (selFields s).invalid = decide (classify s.cfg s.mres = .invalid) := by
  simp only [SelFields.invalid, selFields]
  cases classify s.cfg s.mres <;> rfl

@[simp] theorem selFields_pre (s : State) : (selFields s).pre = preMatch s.cfg s.mres := rfl
@[simp] theorem selFields_idx (s : State) : (selFields s).idx = s.i := rfl
@[simp] theorem selFields_odd (s : State) : (selFields s).odd = s.i.getLsbD 0 := rfl

/-- `CLS[0]` is the bit of a valid symbol: 1 exactly for a Long (R72, R122). -/
@[simp] theorem symbolBit_selFields (s : State) :
    symbolBit (selFields s) = decide (classify s.cfg s.mres = .long) := by
  simp only [symbolBit, selFields]
  cases classify s.cfg s.mres <;> rfl

/-- `EQ` is 1 exactly where the symbol's bit equals `prev` (R76). -/
@[simp] theorem selFields_eq (s : State) :
    (selFields s).eq = (decide (classify s.cfg s.mres = .long) == s.prev) := by
  simp only [selFields, eqFlag]
  cases classify s.cfg s.mres <;> cases s.prev <;> rfl

end Sys2Proof.Machine
end

