-- ==== Sys2Proof/Laws/Measure.lean ====
section
/-! SUPPORT. What a measurement can change: only the clock, the measurement unit's own state, the result and the
script (R105). Stated once for each part of the measurement unit. -/

namespace Sys2Proof.Machine

/-- Two states with the same block registers, configuration and pending request: what no part of the MU writes. -/
structure SameRegisters (s t : State) : Prop where
  cfg : t.cfg = s.cfg
  st : t.st = s.st
  i : t.i = s.i
  prev : t.prev = s.prev
  sender : t.sender = s.sender
  group : t.group = s.group
  onBit : t.onBit = s.onBit
  recipient : t.recipient = s.recipient
  pausePending : t.pausePending = s.pausePending
  setupErr : t.setupErr = s.setupErr
  recValid : t.recValid = s.recValid
  recKind : t.recKind = s.recKind
  recWord : t.recWord = s.recWord
  recCause : t.recCause = s.recCause
  mreq : t.mreq = s.mreq

theorem SameRegisters.refl (s : State) : SameRegisters s s := by constructor <;> rfl

theorem SameRegisters.trans {s t u : State} (h : SameRegisters s t) (k : SameRegisters t u) : SameRegisters s u :=
  ⟨k.cfg.trans h.cfg, k.st.trans h.st, k.i.trans h.i, k.prev.trans h.prev, k.sender.trans h.sender,
    k.group.trans h.group, k.onBit.trans h.onBit, k.recipient.trans h.recipient,
    k.pausePending.trans h.pausePending, k.setupErr.trans h.setupErr, k.recValid.trans h.recValid,
    k.recKind.trans h.recKind, k.recWord.trans h.recWord, k.recCause.trans h.recCause, k.mreq.trans h.mreq⟩

/-- The state in which a measurement ends, whether it returned a result or was abandoned. -/
def MuEnd.EndsIn (e : MuEnd) (t : State) : Prop := e = .done t ∨ e = .abandoned t

/-- A walk's end changes no register, if going on from it changes none. -/
theorem onWalk_same {tail : Level} {s t : State} {w : Walk} {goOn : Nat → List PinItem → State → MuEnd}
    (hgo : ∀ n items u, SameRegisters s u → (goOn n items u).EndsIn t → SameRegisters s t)
    (h : (onWalk tail s w goOn).EndsIn t) : SameRegisters s t := by
  cases w with
  | reached n items => exact hgo n items _ (by constructor <;> rfl) h
  | expired n items => rcases h with h | h <;> cases h; constructor <;> rfl
  | reset n items => rcases h with h | h <;> cases h; constructor <;> rfl
  | command n c items => rcases h with h | h <;> cases h

theorem muPhase2_same {tail : Level} {a : Nat} {items : List PinItem} {s t : State}
    (h : (muPhase2 tail a items s).EndsIn t) : SameRegisters s t :=
  onWalk_same (fun n _ u hu hd => by rcases hd with hd | hd <;> cases hd; exact hu.trans (by constructor <;> rfl)) h

theorem muPhase1_same {tail : Level} {items : List PinItem} {s t : State}
    (h : (muPhase1 tail items s).EndsIn t) : SameRegisters s t :=
  onWalk_same (fun n _ u hu hd =>
    hu.trans (.trans (t := { u with muPhase := .phase2 }) (by constructor <;> rfl) (muPhase2_same hd))) h

theorem measurePin_same {items : List PinItem} {tail : Level} {s t : State}
    (h : (measurePin items tail s).EndsIn t) : SameRegisters s t := by
  unfold measurePin at h
  split at h
  · exact onWalk_same (fun n _ u hu hd =>
      hu.trans (.trans (t := { u with muPhase := .phase1, muT0 := u.now }) (by constructor <;> rfl)
        (muPhase1_same hd))) h
  · exact .trans (t := { s with muT0 := s.now }) (by constructor <;> rfl) (muPhase1_same h)

theorem measureStream_same {items : List StreamItem} {s t : State}
    (h : (measureStream items s).EndsIn t) : SameRegisters s t := by
  simp only [measureStream] at h
  split at h <;> rcases h with h | h <;> cases h <;> constructor <;> rfl

/-- A measurement changes no register of the block, however it ends (R105). -/
theorem measure_same {lvl : Level} {pz : Bool} {tmo : BitVec 30} {s t : State}
    (h : (muMeasure lvl pz tmo s).EndsIn t) : SameRegisters s t := by
  unfold muMeasure at h
  split at h
  · exact .trans (t := muBegin lvl pz tmo s) (by constructor <;> rfl) (measureStream_same h)
  · exact .trans (t := muBegin lvl pz tmo s) (by constructor <;> rfl) (measurePin_same h)

/-- A measurement that returned a result leaves the MU idle (R32). -/
theorem measure_idle {lvl : Level} {pz : Bool} {tmo : BitVec 30} {s t : State}
    (h : muMeasure lvl pz tmo s = .done t) : t.muPhase = .idle := by
  have walk : ∀ {tail : Level} {s : State} {w : Walk} {goOn : Nat → List PinItem → State → MuEnd},
      (∀ n items u, goOn n items u = .done t → t.muPhase = .idle) →
      onWalk tail s w goOn = .done t → t.muPhase = .idle := by
    intro tail s w goOn hgo hw
    cases w with
    | reached n items => exact hgo _ _ _ hw
    | expired n items => cases hw; rfl
    | reset n items => cases hw
    | command n c items => cases hw
  have p2 : ∀ {tail : Level} {a : Nat} {items : List PinItem} {s : State},
      muPhase2 tail a items s = .done t → t.muPhase = .idle :=
    fun hd => walk (fun _ _ _ hu => by cases hu; rfl) hd
  have p1 : ∀ {tail : Level} {items : List PinItem} {s : State},
      muPhase1 tail items s = .done t → t.muPhase = .idle :=
    fun hd => walk (fun _ _ _ hu => p2 hu) hd
  unfold muMeasure at h
  split at h
  · simp only [measureStream] at h
    split at h <;> cases h <;> rfl
  · unfold measurePin at h
    split at h
    · exact walk (fun _ _ _ hu => p1 hu) h
    · exact p1 h

end Sys2Proof.Machine
end

