-- ==== Sys2Proof/Laws/Step.lean ====
section
/-! SUPPORT. What one step can do, said once: `step_cases` is the inversion that claims about every step start from. -/

namespace Sys2Proof.Machine

/-- The step runs the operation of its selector: decoding never fails (R75). -/
theorem runSelected_eq (s : State) : runSelected s = exec (selectOp s.st.code (selFields s)) s := by
  simp [runSelected, selWord]

/-- In IDLE the selector is that of IDLE_WAIT. -/
theorem runSelected_idle {s : State} (h : s.st = .idle) : runSelected s = .next (waitTick s) := by
  simp [runSelected_eq, h, selectOp, exec, execIdleWait]

/-- In HALT the selector is that of HALTED. -/
theorem runSelected_halt {s : State} (h : s.st = .halt) : runSelected s = .next (waitTick s) := by
  simp [runSelected_eq, h, selectOp, exec, execHalted]

/-- Everything a step that answers a next state can have done (R140, R206): a reset, at the step's start or inside
its measurement; a command that was accepted; a request put to the MU alone; waiting in IDLE or HALT; or a
measurement and the operation its selector selects. -/
theorem step_cases {s t : State} (h : step s = .next t) :
    (∃ feed, s.feed.take = some (.reset, feed) ∧ t = resetBlock { s with feed := feed }) ∨
    (∃ c feed i, s.feed.take = some (.command c, feed) ∧ decodeCtrl c = .ok i ∧
      exec i { s with feed := feed } = .next t) ∨
    (s.feed.take = none ∧ ∃ w, s.mreq = some w ∧ exec (decodeMreq w) { s with mreq := none } = .next t) ∨
    (s.feed.take = none ∧ s.mreq = none ∧ (s.st = .idle ∨ s.st = .halt) ∧ t = waitTick s) ∨
    (s.feed.take = none ∧ s.mreq = none ∧ (s.st = .seek ∨ s.st = .frame) ∧
      ((∃ u, duMeasure s = .abandoned u ∧ t = resetBlock u) ∨
       (∃ u, duMeasure s = .done u ∧
          exec (selectOp s.st.code (selFields u)) (stepDefaults u) = .next t))) := by
  unfold step at h
  split at h
  · rename_i feed hf
    simp only [exec, execReset, Host.Outcome.next.injEq] at h
    exact .inl ⟨feed, hf, h.symm⟩
  · rename_i c feed hf
    unfold commandStep at h
    split at h
    · rename_i i hi
      exact .inr (.inl ⟨c, feed, i, hf, hi, h⟩)
    · cases h
  · rename_i hf
    unfold ownStep at h
    split at h
    · rename_i w hw
      exact .inr (.inr (.inl ⟨hf, w, hw, h⟩))
    · rename_i hw
      have waiting : s.st = .idle ∨ s.st = .halt → runSelected s = .next t → t = waitTick s := by
        rintro (hs | hs) hr
        · rw [runSelected_idle hs] at hr; cases hr; rfl
        · rw [runSelected_halt hs] at hr; cases hr; rfl
      have measuring : s.st = .seek ∨ s.st = .frame → measuredStep s = .next t →
          ((∃ u, duMeasure s = .abandoned u ∧ t = resetBlock u) ∨
           (∃ u, duMeasure s = .done u ∧
              exec (selectOp s.st.code (selFields u)) (stepDefaults u) = .next t)) := by
        intro _ hm
        unfold measuredStep at hm
        split at hm
        · rename_i u hu
          have hst : u.st = s.st := (measure_same (by rw [duMeasure_eq] at hu; exact .inl hu)).st
          rw [runSelected_eq, stepDefaults_st, hst] at hm
          exact .inr ⟨u, hu, hm⟩
        · rename_i u hu
          simp only [exec, execReset, Host.Outcome.next.injEq] at hm
          exact .inl ⟨u, hu, hm.symm⟩
        · cases hm
      cases hst : s.st <;> simp only [hst] at h
      · exact .inr (.inr (.inr (.inr ⟨hf, hw, by simp, by simpa only [hst] using measuring (.inl hst) h⟩)))
      · exact .inr (.inr (.inr (.inr ⟨hf, hw, by simp, by simpa only [hst] using measuring (.inr hst) h⟩)))
      · exact .inr (.inr (.inr (.inl ⟨hf, hw, by simp, waiting (.inr hst) h⟩)))
      · exact .inr (.inr (.inr (.inl ⟨hf, hw, by simp, waiting (.inl hst) h⟩)))

end Sys2Proof.Machine
end

