-- ==== Sys2Proof/Laws/Operations.lean ====
section
/-! SUPPORT. What the operations of SEEK, FRAME and the commands can do, once for each state: the inversions that
claims about them start from, and the folds as arithmetic. -/

namespace Sys2Proof.Machine

/-- A fold doubles the accumulator and adds the bit, within its width (R152, R155). -/
theorem foldBit_toNat {w : Nat} (hw : 0 < w) (acc : BitVec w) (prev : Bool) :
    (foldBit acc prev).toNat = (2 * acc.toNat + prev.toNat) % 2 ^ w := by
  have disjoint : acc <<< 1 &&& BitVec.setWidth w (BitVec.ofBool prev) = 0#w := by
    ext i hi
    simp only [BitVec.getElem_and, BitVec.getElem_shiftLeft, BitVec.getElem_setWidth, BitVec.getElem_zero]
    rcases Nat.eq_zero_or_pos i with h | h
    · simp [h]
    · simp [show i ≠ 0 by omega]
  have double : acc <<< 1 = acc + acc := by
    apply BitVec.eq_of_toNat_eq
    simp only [BitVec.toNat_shiftLeft, Nat.shiftLeft_eq, BitVec.toNat_add]
    congr 1; omega
  have bit : (BitVec.setWidth w (BitVec.ofBool prev)).toNat = prev.toNat := by
    cases prev
    · simp
    · simpa using hw
  rw [foldBit, ← BitVec.add_eq_or_of_and_eq_zero _ _ disjoint, double]
  simp only [BitVec.toNat_add, bit, Nat.mod_add_mod]
  congr 1; omega

/-- Bit 31 of a result word, as a bound. -/
theorem mresTimeout_eq (r : MresWord) : mresTimeout r = decide (2 ^ 31 ≤ r.toNat) := by
  simp only [mresTimeout, BitVec.getLsbD, Nat.testBit_eq_decide_div_mod_eq, decide_eq_decide]
  have := r.isLt
  omega

/-- The cause of an Invalid symbol, as a bound on its result word (R201). -/
theorem invCause_eq (r : MresWord) :
    invCause r = if 2 ^ 31 ≤ r.toNat then .pulseTimeout else .symbolOutOfRange := by
  simp [invCause, mresTimeout_eq]

/-- Oddness of the index. -/
theorem odd_eq (f : SelFields) : f.odd = decide (f.idx.toNat % 2 = 1) := by
  simp [SelFields.odd, BitVec.getLsbD, Nat.testBit_zero]

/-- What an operation of SEEK can do (R146, R147). -/
theorem seek_cases {f : SelFields} {s t : State} (h : exec (selectOp 0b00 f) s = .next t) :
    (f.pre = false ∧ t = s) ∨
    (f.pre = true ∧ t = { s with
      st := .frame, i := 0, prev := false, sender := 0, group := false, onBit := false, recipient := 0 }) := by
  simp only [selectOp] at h
  rw [if_neg (by decide), if_neg (by decide), if_pos trivial] at h
  cases hp : f.pre <;> simp only [hp] at h <;> cases h
  · exact .inl ⟨rfl, rfl⟩
  · exact .inr ⟨rfl, rfl⟩

/-- What an operation of FRAME can do, and where (R148 to R157). -/
inductive FrameCase (f : SelFields) (s t : State) : Prop where
  | nodata (hi : f.idx = 0) (hc : f.invalid = true) (h : t = frameAbort .nodata (invCause s.mres) s)
  | abort (hi : f.idx ≠ 0) (hc : f.invalid = true) (h : t = frameAbort .partialRec (invCause s.mres) s)
  | viol (ho : f.odd = true) (hc : f.invalid = false) (he : f.eq = true)
      (h : t = frameAbort .partialRec .manchesterViolation s)
  | even (ho : f.odd = false) (hc : f.invalid = false) (h : t = advance f s)
  | sender (hf : f.folds = true) (hi : f.idx.toNat ≤ 51)
      (h : t = { advance f s with sender := foldBit s.sender s.prev })
  | group (hf : f.folds = true) (hi : f.idx.toNat = 53) (h : t = { advance f s with group := s.prev })
  | on (hf : f.folds = true) (hi : f.idx.toNat = 55) (h : t = { advance f s with onBit := s.prev })
  | rcpt (hf : f.folds = true) (hi : 57 ≤ f.idx.toNat) (hi' : f.idx.toNat ≤ 61)
      (h : t = { advance f s with recipient := foldBit s.recipient s.prev })
  | last (hf : f.folds = true) (hi : f.idx.toNat = 63) (h : execFrmLast f s = .next t)

/-- The operation a FRAME selector selects does one of these. -/
theorem frame_cases {f : SelFields} {s t : State} (h : exec (selectOp 0b01 f) s = .next t) : FrameCase f s t := by
  simp only [selectOp] at h
  rw [if_neg (by decide), if_neg (by decide), if_neg (by decide)] at h
  cases hc : f.invalid
  · rw [if_neg (by simp [hc])] at h
    cases ho : f.odd
    · rw [if_pos ho] at h; cases h
      exact .even ho hc rfl
    rw [if_neg (by simp [ho])] at h
    cases he : f.eq
    · rw [if_neg (by simp [he])] at h
      have hf : f.folds = true := by simp [SelFields.folds, hc, ho, he]
      by_cases h53 : f.idx = 53
      · rw [if_pos h53] at h; cases h
        exact .group hf (by rw [h53]; rfl) rfl
      rw [if_neg h53] at h
      by_cases h55 : f.idx = 55
      · rw [if_pos h55] at h; cases h
        exact .on hf (by rw [h55]; rfl) rfl
      rw [if_neg h55] at h
      by_cases h63 : f.idx = 63
      · rw [if_pos h63] at h
        exact .last hf (by rw [h63]; rfl) h
      rw [if_neg h63] at h
      have range : f.idx.toNat ≤ 51 ∨ (57 ≤ f.idx.toNat ∧ f.idx.toNat ≤ 61) := by
        unfold SelFields.odd at ho
        clear h hf
        generalize f.idx = i at *
        revert i; decide
      by_cases h57 : 57 ≤ f.idx.toNat
      · rw [if_pos h57] at h; cases h
        exact .rcpt hf h57 (by omega) rfl
      · rw [if_neg h57] at h; cases h
        exact .sender hf (by omega) rfl
    · rw [if_pos he] at h; cases h
      exact .viol ho hc he rfl
  · rw [if_pos hc] at h
    by_cases hi : f.idx = 0
    · rw [if_pos hi] at h; cases h
      exact .nodata hi hc rfl
    · rw [if_neg hi] at h; cases h
      exact .abort hi hc rfl

/-- What a command that answers a next state has done, and where (R142 to R144). -/
theorem command_cases {c : CtrlWord} {i : Instr} {s t : State} (hc : decodeCtrl c = .ok i)
    (he : exec i s = .next t) :
    s.st = .idle ∧ s.setupErr = .none ∧
      (t = { s with st := .seek, pausePending := false, recValid := false } ∨
       t = recordSetupFailure .pinUnset s ∨ t = recordSetupFailure .gpioInitFail s) := by
  have accepted : acceptsSetup s = true → s.st = .idle ∧ s.setupErr = .none := by simp [acceptsSetup]
  unfold decodeCtrl at hc
  split at hc
  · cases hc
  split at hc
  · cases hc
    simp only [exec, execStart] at he
    split at he <;> cases he
    rename_i h
    exact ⟨(accepted h).1, (accepted h).2, .inl rfl⟩
  split at hc
  · cases hc
    simp only [exec, execFailPin] at he
    split at he <;> cases he
    rename_i h
    exact ⟨(accepted h).1, (accepted h).2, .inr (.inl rfl)⟩
  split at hc
  · cases hc
    simp only [exec, execFailInit] at he
    split at he <;> cases he
    rename_i h
    exact ⟨(accepted h).1, (accepted h).2, .inr (.inr rfl)⟩
  · cases hc

/-- A SEEK or FRAME step whose measurement returned: the operation of the selector, after the defaults (R140). -/
theorem step_of_duMeasure {s u : State} (hf : s.feed.take = none) (hm : s.mreq = none)
    (hs : s.st = .seek ∨ s.st = .frame) (hu : duMeasure s = .done u) :
    step s = exec (selectOp s.st.code (selFields u)) (stepDefaults u) := by
  have e : u.st = s.st := (measure_same (by rw [duMeasure_eq] at hu; exact .inl hu)).st
  have h : ownStep s = exec (selectOp s.st.code (selFields u)) (stepDefaults u) := by
    have : measuredStep s = exec (selectOp s.st.code (selFields u)) (stepDefaults u) := by
      simp only [measuredStep, hu, runSelected_eq, stepDefaults_st, e]
      rfl
    rcases hs with hs | hs <;> simp only [ownStep, hm, hs] <;> simpa only [hs] using this
  simp only [step, hf, h]

/-- A run goes on from the state its first step answers. -/
theorem run_of_step (M : Host.Core) {s t : M.State} (k : Nat) (h : M.step s = .next t) :
    M.run (k + 1) s = M.run k t := by
  rw [Host.Core.run.eq_2, h]

/-- A run of `a + b` steps is a run of `b` steps from where the first `a` end. -/
theorem run_add (M : Host.Core) (b : Nat) {t : M.State} : ∀ (a : Nat) {s : M.State}, M.run a s = .next t →
    M.run (a + b) s = M.run b t
  | 0, s, h => by cases h; rw [Nat.zero_add]
  | a + 1, s, h => by
    cases hs : M.step s with
    | next u =>
      rw [run_of_step M a hs] at h
      rw [Nat.add_right_comm, run_of_step M _ hs]
      exact run_add M b a h
    | fault r => rw [Host.Core.run.eq_2, hs] at h; cases h
    | refused r => rw [Host.Core.run.eq_2, hs] at h; cases h

end Sys2Proof.Machine
end

