-- ==== Sys2Proof/Laws/PerInstr.lean ====
section
/-! SUPPORT. Facts about every operation as syntax, one lemma per constructor. -/

namespace Sys2Proof.Laws.FormatFits

/-- The encoded word has no bit above its format's width (R81). -/
def Statement (i : Instr) : Prop := (encode i).2.toNat < 2 ^ (encode i).1.width

theorem sel (st : BitVec 2) (f : SelFields) : (encodeSel st f).2.toNat < 2 ^ (encodeSel st f).1.width := by
  have h := (f.toWord st).isLt
  simp only [encodeSel, Format.width, BitVec.toNat_setWidth]
  exact lt_of_le_of_lt (Nat.mod_le _ _) h

theorem idleWait (f : SelFields) : Statement (.idleWait f) := sel _ f
theorem halted (f : SelFields) : Statement (.halted f) := sel _ f
theorem seekMiss (f : SelFields) : Statement (.seekMiss f) := sel _ f
theorem seekHit (f : SelFields) : Statement (.seekHit f) := sel _ f
theorem frmNodata (f : SelFields) : Statement (.frmNodata f) := sel _ f
theorem frmAbort (f : SelFields) : Statement (.frmAbort f) := sel _ f
theorem frmEven (f : SelFields) : Statement (.frmEven f) := sel _ f
theorem frmViol (f : SelFields) : Statement (.frmViol f) := sel _ f
theorem frmSender (f : SelFields) : Statement (.frmSender f) := sel _ f
theorem frmGroup (f : SelFields) : Statement (.frmGroup f) := sel _ f
theorem frmOn (f : SelFields) : Statement (.frmOn f) := sel _ f
theorem frmRcpt (f : SelFields) : Statement (.frmRcpt f) := sel _ f
theorem frmLast (f : SelFields) : Statement (.frmLast f) := sel _ f
theorem start : Statement .start := by unfold Statement; decide
theorem failPin : Statement .failPin := by unfold Statement; decide
theorem failInit : Statement .failInit := by unfold Statement; decide
theorem measure (lvl : Level) (pz : Bool) (tmo : BitVec 30) : Statement (.measure lvl pz tmo) :=
  (encodeMreq lvl pz tmo).isLt
theorem reset : Statement .reset := by unfold Statement; decide

end Sys2Proof.Laws.FormatFits
end

