-- ==== Sys2Proof/Tests/Slice0.lean ====
section
/-! SUPPORT. The model's own tests. Words and expected results are taken from `spec/95_test_vectors.md` (V1 to V13)
and from the encodings of `spec/30_encoding.md`; the witnesses show states that meet the hypotheses of the
obligations. -/

namespace Sys2Proof.Tests

open Sys2Proof.Machine

/-! ### Decoding: words written out bit by bit from R71, R74 and R77, fields `ST CLS PRE EQ IDX` -/

theorem test_decode_idle_wait : decode .sel 0b11_01_0_1_000011 = .ok (.idleWait ⟨0b01, false, true, 3⟩) := by decide
theorem test_decode_halted : decode .sel 0b10_00_0_0_000000 = .ok (.halted ⟨0b00, false, false, 0⟩) := by decide
theorem test_decode_seek_miss : decode .sel 0b00_01_0_0_000000 = .ok (.seekMiss ⟨0b01, false, false, 0⟩) := by decide
theorem test_decode_seek_hit : decode .sel 0b00_10_1_0_000000 = .ok (.seekHit ⟨0b10, true, false, 0⟩) := by decide
theorem test_decode_frm_nodata : decode .sel 0b01_10_0_1_000000 = .ok (.frmNodata ⟨0b10, false, true, 0⟩) := by decide
theorem test_decode_frm_abort : decode .sel 0b01_10_0_1_000001 = .ok (.frmAbort ⟨0b10, false, true, 1⟩) := by decide
theorem test_decode_frm_even : decode .sel 0b01_01_0_0_001000 = .ok (.frmEven ⟨0b01, false, false, 8⟩) := by decide
theorem test_decode_frm_viol : decode .sel 0b01_01_0_1_111111 = .ok (.frmViol ⟨0b01, false, true, 63⟩) := by decide
theorem test_decode_frm_sender : decode .sel 0b01_01_0_0_110011 = .ok (.frmSender ⟨0b01, false, false, 51⟩) := by decide
theorem test_decode_frm_group : decode .sel 0b01_00_0_0_110101 = .ok (.frmGroup ⟨0b00, false, false, 53⟩) := by decide
theorem test_decode_frm_on : decode .sel 0b01_01_0_0_110111 = .ok (.frmOn ⟨0b01, false, false, 55⟩) := by decide
theorem test_decode_frm_rcpt : decode .sel 0b01_00_0_0_111101 = .ok (.frmRcpt ⟨0b00, false, false, 61⟩) := by decide
theorem test_decode_frm_last : decode .sel 0b01_00_0_0_111111 = .ok (.frmLast ⟨0b00, false, false, 63⟩) := by decide
theorem test_decode_start : decode .ctrl 0b001 = .ok .start := by decide
theorem test_decode_fail_pin : decode .ctrl 0b010 = .ok .failPin := by decide
theorem test_decode_fail_init : decode .ctrl 0b011 = .ok .failInit := by decide
/-- V3: `LVL` 1, `PZ` 0, `TMO` 100. -/
theorem test_decode_measure : decode .mreq 0x80000064 = .ok (.measure .high false 100) := by decide
/-- V9: `MEASURE(LOW, 1000, 1)`. -/
theorem test_decode_measure_pause : decode .mreq 0x400003E8 = .ok (.measure .low true 1000) := by decide
theorem test_decode_reset : decode .rst 0b1 = .ok .reset := by decide

/-- R77: NOP is no command and `0b1xx` is reserved; R79: the reset input at 0 is no reset; R81: no word is wider than
its format. -/
theorem test_decode_rejects :
    decode .ctrl 0b000 = .error .noCommand ∧ decode .ctrl 0b100 = .error .reservedCommand ∧
      decode .ctrl 0b111 = .error .reservedCommand ∧ decode .rst 0 = .error .resetNotAsserted ∧
      decode .sel 0x1000 = .error .tooWide ∧ decode .ctrl 0b1000 = .error .tooWide ∧
      decode .rst 0b10 = .error .tooWide := by decide

/-! ### WellFormed: one ill-formed term for each check -/

theorem test_ill_seek_miss : (Instr.seekMiss ⟨0b10, true, false, 0⟩).wellFormed = false := by decide
theorem test_ill_seek_hit : (Instr.seekHit ⟨0b10, false, false, 0⟩).wellFormed = false := by decide
theorem test_ill_frm_nodata :
    (Instr.frmNodata ⟨0b01, false, false, 0⟩).wellFormed = false ∧
      (Instr.frmNodata ⟨0b10, false, false, 1⟩).wellFormed = false := by decide
theorem test_ill_frm_abort :
    (Instr.frmAbort ⟨0b10, false, false, 0⟩).wellFormed = false ∧
      (Instr.frmAbort ⟨0b00, false, false, 5⟩).wellFormed = false := by decide
theorem test_ill_frm_even :
    (Instr.frmEven ⟨0b00, false, false, 5⟩).wellFormed = false ∧
      (Instr.frmEven ⟨0b10, false, false, 4⟩).wellFormed = false := by decide
theorem test_ill_frm_viol :
    (Instr.frmViol ⟨0b00, false, false, 5⟩).wellFormed = false ∧
      (Instr.frmViol ⟨0b00, false, true, 4⟩).wellFormed = false ∧
      (Instr.frmViol ⟨0b11, false, true, 5⟩).wellFormed = false := by decide
theorem test_ill_frm_sender :
    (Instr.frmSender ⟨0b00, false, false, 53⟩).wellFormed = false ∧
      (Instr.frmSender ⟨0b00, false, true, 1⟩).wellFormed = false := by decide
theorem test_ill_frm_group : (Instr.frmGroup ⟨0b00, false, false, 51⟩).wellFormed = false := by decide
theorem test_ill_frm_on : (Instr.frmOn ⟨0b00, false, false, 53⟩).wellFormed = false := by decide
theorem test_ill_frm_rcpt : (Instr.frmRcpt ⟨0b00, false, false, 63⟩).wellFormed = false := by decide
theorem test_ill_frm_last : (Instr.frmLast ⟨0b00, false, false, 61⟩).wellFormed = false := by decide

/-! ### The comparators and the record word (V10, V11) -/

/-- The source's configuration, with a pause of 10 ticks (V9, row 12). -/
def cfg : Config := { pauseUs := 10, pinId := 0, recBusMap := 0 }

theorem test_classify_bounds :
    classify cfg 0x190 = .invalid ∧ classify cfg 0x191 = .short ∧ classify cfg 0x257 = .short ∧
      classify cfg 0x258 = .invalid ∧ classify cfg 0x579 = .long ∧ classify cfg 0x707 = .long ∧
      classify cfg 0x708 = .invalid ∧ classify cfg 0x80000000 = .invalid := by decide
theorem test_preMatch_bounds :
    preMatch cfg 0xB54 = false ∧ preMatch cfg 0xB55 = true ∧ preMatch cfg 0xC9D = true ∧
      preMatch cfg 0xC9E = false ∧ preMatch cfg 0x80000000 = false := by decide
theorem test_pack : packWord 12345678 false true 5 = 0x2F185395 ∧ packWord 1 true false 15 = 0x6F := by decide

/-! ### Operations, one step each (V12) -/

/-- The block right after reset, with the clock at 0. -/
def small : State := State.resetWith cfg 0

/-- A state in SEEK whose next measurement returns `r`. -/
def seekOn (r : MresWord) : State := { small with st := .seek, feed := .stream [.result r] }

/-- A state in FRAME at index `i`, with `prev`, whose next measurement returns `r`. -/
def frameOn (i : BitVec 6) (prev : Bool) (r : MresWord) : State :=
  { small with st := .frame, i := i, prev := prev, feed := .stream [.result r] }

/-- The outcome is a next state of which `p` holds. -/
def next (o : Host.Outcome State Fault Refusal) (p : State → Bool) : Bool :=
  match o with
  | .next t => p t
  | .fault _ => false
  | .refused _ => false

/-- The outcome is this refusal. -/
def refuses (o : Host.Outcome State Fault Refusal) (r : Refusal) : Bool :=
  match o with
  | .next _ => false
  | .fault _ => false
  | .refused r' => r' == r

/-- Row 1. -/
theorem test_idle_wait : next (step small) (fun t => t.st == .idle && t.now == 1) = true := by decide
/-- Row 2. -/
theorem test_halted :
    next (step { small with st := .halt, recValid := true }) (fun t => t.st == .halt && t.recValid) = true := by decide
/-- Row 4: a Timeout in SEEK is a miss. -/
theorem test_seek_miss :
    selWord { seekOn 0 with mres := 0x80000000 } = 0x240 ∧
      next (step { seekOn 0x80000000 with recValid := true, sender := 7 })
        (fun t => t.st == .seek && !t.recValid && t.sender == 7) = true := by decide
/-- Row 6. -/
theorem test_seek_hit :
    selWord { seekOn 0 with mres := 0xB55, prev := true } = 0x280 ∧
      next (step { seekOn 0xB55 with prev := true, sender := 7 })
        (fun t => t.st == .frame && t.i == 0 && !t.prev && t.sender == 0) = true := by decide
/-- Row 8. -/
theorem test_frm_nodata :
    next (step (frameOn 0 false 0x80000000)) (fun t =>
      t.recKind == .nodata && t.recCause == .pulseTimeout && t.recWord == 0 && t.st == .seek && t.pausePending) = true := by
  decide
/-- Rows 11 and 25. -/
theorem test_frm_abort :
    next (step { frameOn 10 true 900 with sender := 22 }) (fun t =>
      t.recKind == .partialRec && t.recCause == .symbolOutOfRange && t.recWord == 0x580 && t.i == 0 && t.recValid) = true ∧
      next (step (frameOn 63 true 900)) (fun t => t.recCause == .symbolOutOfRange) = true := by decide
/-- Row 15: no pair check at an even index. -/
theorem test_frm_even : next (step (frameOn 8 true 0x640)) (fun t => t.prev && t.i == 9 && t.st == .frame) = true := by
  decide
/-- Row 12. -/
theorem test_frm_viol :
    next (step (frameOn 1 false 0x1F4)) (fun t =>
      t.recCause == .manchesterViolation && t.recKind == .partialRec && t.sender == 0 && t.i == 0) = true := by decide
/-- Rows 16 and 18. -/
theorem test_frm_sender :
    next (step { frameOn 7 true 0x1F4 with sender := 5 }) (fun t => t.sender == 0xB && !t.prev && t.i == 8) = true ∧
      next (step { frameOn 51 false 0x640 with sender := 0x1FFFFFF })
        (fun t => t.sender == 0x3FFFFFE && t.prev && t.i == 52) = true := by decide
/-- Row 19. -/
theorem test_frm_group : next (step (frameOn 53 true 0x1F4)) (fun t => t.group && !t.prev && t.i == 54) = true := by
  decide
/-- Row 20: `on` is written, not ORed. -/
theorem test_frm_on :
    next (step { frameOn 55 false 0x640 with onBit := true }) (fun t => !t.onBit && t.prev && t.i == 56) = true := by
  decide
/-- Row 23. -/
theorem test_frm_rcpt :
    next (step { frameOn 61 true 0x1F4 with recipient := 2 }) (fun t => t.recipient == 5 && t.i == 62) = true := by decide
/-- Row 24, single-shot. -/
theorem test_frm_last :
    next (step { frameOn 63 true 0x1F4 with sender := 12345678, onBit := true, recipient := 2 }) (fun t =>
      t.recKind == .complete && t.recWord == 0x2F185395 && t.st == .halt && t.i == 0 && t.recipient == 5) = true := by
  decide
/-- Row 24, continuous. -/
theorem test_frm_last_continuous :
    next (step { frameOn 63 true 0x1F4 with cfg := { cfg with continuous := true } })
      (fun t => t.st == .seek && t.pausePending && t.recValid) = true := by decide

/-! ### Commands and reset (V13) -/

/-- A script that gives one command. -/
def commanded (c : CtrlWord) (s : State) : State := { s with feed := .stream [.ctrl c] }

/-- Row 1. -/
theorem test_start : next (step (commanded 0b001 small)) (fun t => t.st == .seek && t.now == 0) = true := by decide
/-- Rows 4, 5 and 6. -/
theorem test_refused :
    refuses (step (commanded 0b001 { small with setupErr := .pinUnset })) (.commandNotAccepted 0b001) = true ∧
      refuses (step (commanded 0b001 { small with st := .seek })) (.commandNotAccepted 0b001) = true ∧
      refuses (step (commanded 0b100 small)) (.reservedCommand 0b100) = true := by decide
/-- Row 2. -/
theorem test_fail_pin : next (step (commanded 0b010 small)) (fun t => t.setupErr == .pinUnset && t.st == .idle) = true := by
  decide
/-- Row 3. -/
theorem test_fail_init :
    next (step (commanded 0b011 small)) (fun t => t.setupErr == .gpioInitFail && t.st == .idle) = true := by decide
/-- Row 8. -/
theorem test_reset :
    next (step { frameOn 40 true 0 with sender := 9, now := 77, feed := .stream [.reset] })
      (fun t => t == { small with now := 77 }) = true := by decide

/-! ### MEASURE (V9) -/

/-- A state in which the pin follows a waveform. -/
def pinOn (items : List PinItem) (tail : Level) : State := { small with feed := .pin items tail }

/-- Rows 2 and 3: the level is tested before the deadline, and one tick past it is a Timeout. -/
theorem test_measure_deadline :
    next (exec (.measure .low false 1000) (pinOn [.hold .high 600, .hold .low 400] .high))
        (fun t => t.mres == 1000 && t.now == 1000) = true ∧
      next (exec (.measure .low false 1000) (pinOn [.hold .high 600, .hold .low 401] .high))
        (fun t => t.mres == 0x80000000 && t.now == 1000) = true := by decide
/-- Row 12: the pause does not see the pin. -/
theorem test_measure_pause :
    next (exec (.measure .low true 1000) (pinOn [.hold .low 5, .hold .high 15, .hold .low 10] .high))
      (fun t => t.mres == 20 && t.now == 30 && t.muT0 == 10) = true := by decide

/-! ### The placing of one table word (R79) -/

/-- The next step after placing a word runs the operation of its row. -/
theorem test_withFetchWord :
    next (step (small.withFetchWord 12 0x43F)) (fun t => t.recKind == .complete) = true ∧
      next (step (small.withFetchWord 3 0b010)) (fun t => t.setupErr == .pinUnset) = true ∧
      next (step (small.withFetchWord 12 0x641)) (fun t => t.recKind == .partialRec) = true ∧
      decodeTableWord 12 0x641 = some (.frmAbort ⟨0b10, false, true, 1⟩) ∧ decodeTableWord 3 0b101 = none := by decide

/-! ### Witnesses: the hypotheses of the obligations can be met -/

/-- The measurement's end as a state, for the witnesses. -/
def afterMeasure (s : State) : State :=
  match duMeasure s with
  | .done u => u
  | .abandoned u => u
  | .refused _ => s

theorem witness_DecodeOfEncode :
    (Instr.frmNodata ⟨0b11, true, true, 0⟩).wellFormed = true ∧
      (Instr.frmSender ⟨0b01, true, false, 51⟩).wellFormed = true ∧
      (Instr.frmRcpt ⟨0b00, false, false, 57⟩).wellFormed = true ∧
      (Instr.measure .high true 0x3FFFFFFF).wellFormed = true := by decide

theorem witness_EncodeOfDecode :
    decode .sel 0xFFF = .ok (.idleWait ⟨0b11, true, true, 63⟩) ∧
      decode .mreq 0xFFFFFFFF = .ok (.measure .high true 0x3FFFFFFF) := by decide

/-- The clauses about the row that wins, at the indices where it changes. -/
theorem witness_SelectorHasOneSmallestRow :
    (⟨0b10, false, false, 0⟩ : SelFields).invalid = true ∧ (⟨0b00, false, false, 53⟩ : SelFields).folds = true ∧
      (⟨0b00, false, false, 55⟩ : SelFields).folds = true ∧ (⟨0b00, false, false, 57⟩ : SelFields).folds = true ∧
      (⟨0b00, false, false, 61⟩ : SelFields).folds = true ∧ (⟨0b00, false, false, 63⟩ : SelFields).folds = true := by
  decide

theorem witness_DuRequestWord : small.cfg.measureTimeoutUs = 1000000 := by decide

/-- Both sides of bit 31, and both values of each comparator, at the bounds. -/
theorem witness_ComparatorWindows :
    (2 ^ 31 ≤ (0x80000000 : MresWord).toNat ∧ (0x7FFFFFFF : MresWord).toNat < 2 ^ 31) ∧
      classify cfg 401 = .short ∧ classify cfg 1401 = .long ∧ preMatch cfg 2901 = true := by decide

/-- A waveform with no host input in it. -/
def wave : List PinItem := [.hold .high 100, .hold .low 2900]

/-- MeasureIsThePollingLoop, MeasureClosedForm and PauseIsBlind ask for a waveform alone; the second pair of
hypotheses of PauseIsBlind is met by two waveforms that differ within the pause only. -/
theorem witness_waveform :
    (pinOn wave .high).feed = .pin wave .high ∧ eventFree wave = true ∧
      eventFree [.hold .low 3, .hold .high 7, .hold .low 50] = true ∧ eventFree [.hold .high 10, .hold .low 50] = true := by
  decide

theorem witness_PauseIsBlind (x : Nat) :
    levelAt .high [.hold .low 3, .hold .high 7, .hold .low 50] ((pinOn wave .high).cfg.pauseUs + x) =
      levelAt .high [.hold .high 10, .hold .low 50] ((pinOn wave .high).cfg.pauseUs + x) := by
  have h : (pinOn wave .high).cfg.pauseUs = 10 := rfl
  have e : 10 + x - 3 - 7 = 10 + x - 10 := by omega
  simp [h, levelAt, e, show ¬ (10 + x < 3) by omega, show ¬ (10 + x - 3 < 7) by omega]

/-- The deadline meets both outcomes: `t2` at the timeout, and one tick past it. -/
theorem witness_MeasureClosedForm :
    levelAt .high wave 99 = .high ∧ levelAt .high wave 100 = .low ∧ levelAt .high wave 2999 = .low ∧
      levelAt .high wave 3000 = .high := by decide

theorem witness_SharedDeadline :
    (∀ x, x < 6 → levelAt .high [.hold .high 6, .hold .low 5] x ≠ .low) ∧
      (∀ x, x < 11 → 6 ≤ x → levelAt .high [.hold .high 6, .hold .low 5] x = .low) ∧
      (10 : BitVec 30).toNat < 6 + 5 := by decide

theorem witness_MeasureDrawsFromTheStream :
    (seekOn 0x80000000).feed = .stream (.result 0x80000000 :: []) ∧ small.feed = .stream [] := by decide

/-- MeasureWritesNoRegister and ResultIsElapsedTime: a measurement that returns, with a Timeout and with a duration, at
pin level and at stream level. -/
theorem witness_muMeasure :
    (match muMeasure .low true 1000 (seekOn timeoutWord) with | .done t => t.now == 1010 | _ => false) = true ∧
    (match muMeasure .low false 1000 (seekOn 1000) with | .done t => t.now == 1000 && t.muT0 == 0 | _ => false) = true ∧
    (match muMeasure .low true 1000 (pinOn wave .high) with | .done t => t.mres == timeoutWord | _ => false) = true ∧
      (match muMeasure .low false 3000 (pinOn wave .high) with | .done t => t.mres == 3000 | _ => false) = true := by
  decide

theorem witness_SymbolIsHighPlusLow :
    (0 < 1 ∧ 1 + 9 ≤ (10 : BitVec 30).toNat) ∧
      (pinOn [.hold .high 1, .hold .low 9, .hold .high 1] .high).feed =
        .pin (.hold .high 1 :: .hold .low 9 :: .hold .high 1 :: []) .high := by decide

/-- The reset input at the step's start, and inside a measurement, with the pause and without it. -/
theorem witness_ResetInAnyStateAtAnyTick :
    (Feed.stream [.reset]).take = some (.reset, .stream []) ∧
      (let before : List PinItem := [.hold .high 40, .hold .low 2]
       eventFree before = true ∧ small.mreq = none ∧
        holdTicks before ≤ pauseTicks true small + small.cfg.measureTimeoutUs.toNat ∧
        ∀ t1, t1 < 42 → ∀ t2, t2 < 42 → t1 ≤ t2 →
          ¬ (levelAt .high before t1 = .low ∧ levelAt .high before t2 = .high)) := by decide

theorem witness_StartBeginsListening :
    (small.st = .idle ∧ small.setupErr = .none) ∧ (seekOn 0).st ≠ .idle ∧
      ({ small with setupErr := .gpioInitFail } : State).setupErr ≠ .none := by decide

theorem witness_CommandsAreAcceptedOrRefused :
    (commanded 0b001 small).feed.take = some (.command 0b001, .stream []) ∧
      (commanded 0b011 (seekOn 0)).feed.take = some (.command 0b011, .stream []) ∧
      (commanded 0b100 small).feed.take = some (.command 0b100, .stream []) ∧ 4 ≤ (0b100 : CtrlWord).toNat := by decide

/-- A command at pin level on the last tick of the deadline, and in the pause. -/
theorem witness_StillMeasuring :
    StillMeasuring .low (pauseTicks true small) (10 : BitVec 30).toNat [.hold .high 8, .hold .low 12] .high ∧
      StillMeasuring .low (pauseTicks true small) (10 : BitVec 30).toNat [.hold .low 3, .hold .high 6] .high := by
  have late : ∀ t1, t1 < 20 → ∀ t2, t2 < 20 → 10 ≤ t1 →
      ¬ (levelAt .high [.hold .high 8, .hold .low 12] t1 = .low ∧
        levelAt .high [.hold .high 8, .hold .low 12] t2 ≠ .low ∧ t1 ≤ t2) := by decide
  refine ⟨⟨by decide, by decide, fun t1 t2 h1 h2 h3 hl => ?_⟩, ⟨by decide, by decide, fun t1 t2 h1 h2 h3 => ?_⟩⟩
  · have h3 : t2 < 20 := h3
    exact late t1 (by omega) t2 h3 h1 ⟨hl.1, hl.2, h2⟩
  · have h1 : 10 ≤ t1 := h1
    have h3 : t2 < 9 := h3
    omega

/-- A state in which such a command comes, at each level; at stream level it comes after a NOP. -/
theorem witness_CommandDuringMeasurementIsRefused :
    (0b100 : CtrlWord) ≠ 0 ∧
      (pinOn ([.hold .high 8, .hold .low 12] ++ .ctrl 0b100 :: []) .high).feed =
        .pin ([.hold .high 8, .hold .low 12] ++ .ctrl 0b100 :: []) .high ∧
      ({ seekOn 0 with feed := .stream [.ctrl 0, .ctrl 0b011, .result 500] } : State).feed =
        .stream (List.replicate 1 (.ctrl 0) ++ .ctrl 0b011 :: [.result 500]) ∧
      (seekOn 0).mreq = none ∧ (seekOn 0).st = .seek := by decide

/-- Log 7: the step refuses by the command's code. -/
theorem test_command_during_measurement :
    refuses (step { small with st := .seek, feed := .pin [.hold .high 30, .ctrl 0b001] .high })
        (.commandNotAccepted 0b001) = true ∧
      refuses (exec (.measure .low true 10) (pinOn [.hold .high 8, .hold .low 12, .ctrl 0b100] .high))
        (.reservedCommand 0b100) = true := by decide

/-- R206, point 1: a reset input at the tick of a command goes before it, where the command would be refused, inside a
measurement, and in the pause of one. -/
theorem test_reset_over_command :
    next (step { small with setupErr := .pinUnset, feed := .pin [.ctrl 0b100, .hold .low 0, .reset] .high })
        (fun t => t == { small with feed := .pin [] .high }) = true ∧
      next (step { small with st := .frame, feed := .pin [.hold .high 30, .ctrl 0b001, .reset, .ctrl 0b001] .high })
        (fun t => t == { small with now := 30, feed := .pin [.ctrl 0b001] .high }) = true ∧
      next (exec (.measure .low true 10) (pinOn [.hold .low 9, .ctrl 0b111, .reset] .high))
        (fun t => t.now == 9 && t.st == .idle) = true := by decide

/-- A reset input one tick after a command does not reach back to it. -/
theorem test_reset_after_command :
    refuses (step { small with feed := .pin [.ctrl 0b100, .hold .low 1, .reset] .high }) (.reservedCommand 0b100) = true := by
  decide

theorem witness_ResetOverridesCommands :
    holdTicks [.ctrl 0b100, .hold .low 0] = 0 ∧ (.reset ∉ [.ctrl 0b100, (.hold .low 0 : PinItem)]) ∧
      (pinOn ([.ctrl 0b100, .hold .low 0] ++ .reset :: []) .high).feed =
        .pin ([.ctrl 0b100, .hold .low 0] ++ .reset :: []) .high ∧
      (pinOn ([.hold .high 8, .hold .low 12] ++ ([.ctrl 0b100] ++ .reset :: [])) .high).feed =
        .pin ([.hold .high 8, .hold .low 12] ++ ([.ctrl 0b100] ++ .reset :: [])) .high := by decide

/-- CommandDuringMeasurementIsRefused asks for a tick without a reset input. -/
theorem witness_NoResetNow : NoResetNow [.hold .low 1, .reset] := by
  intro same rest h
  rcases same with _ | ⟨x, same⟩
  · cases h
  · obtain ⟨rfl, -⟩ := List.cons.inj h
    simp only [holdTicks]; omega

/-- One state for each clause: the reset input, a command, a request to the MU, waiting, and a measured step. -/
theorem witness_StepRunsTheDecodedOperation :
    ({ small with feed := .pin [.hold .low 0, .reset] .high } : State).feed.take = some (.reset, .pin [] .high) ∧
    ((commanded 0b001 small).feed.take = some (.command 0b001, .stream []) ∧ decodeCtrl 0b001 = .ok .start) ∧
      (({ small with mreq := some 0x64 } : State).feed.take = none ∧
        decode .mreq 0x64 = .ok (.measure .low false 100)) ∧
      (small.feed.take = none ∧ small.mreq = none ∧ decodeSel (selWord small) = .ok (.idleWait (selFields small))) ∧
      ((seekOn 0xBB8).feed.take = none ∧ (seekOn 0xBB8).mreq = none ∧
        duMeasure (seekOn 0xBB8) = .done (afterMeasure (seekOn 0xBB8)) ∧
        decodeSel (selWord (afterMeasure (seekOn 0xBB8))) = .ok (.seekHit ⟨0b10, true, true, 0⟩)) := by decide

theorem witness_SeekStep :
    (Measured (seekOn 2900) (afterMeasure (seekOn 2900)) ∧ preMatch cfg (afterMeasure (seekOn 2900)).mres = false) ∧
      (Measured (seekOn 2901) (afterMeasure (seekOn 2901)) ∧ preMatch cfg (afterMeasure (seekOn 2901)).mres = true) :=
  ⟨⟨⟨by decide, by decide, by decide⟩, by decide⟩, ⟨⟨by decide, by decide, by decide⟩, by decide⟩⟩

theorem witness_InvalidSymbolAborts :
    (Measured (frameOn 0 false 600) (afterMeasure (frameOn 0 false 600)) ∧
      classify cfg (afterMeasure (frameOn 0 false 600)).mres = .invalid) ∧
      (Measured (frameOn 63 true 0x80000000) (afterMeasure (frameOn 63 true 0x80000000)) ∧
        classify cfg (afterMeasure (frameOn 63 true 0x80000000)).mres = .invalid) :=
  ⟨⟨⟨by decide, by decide, by decide⟩, by decide⟩, ⟨⟨by decide, by decide, by decide⟩, by decide⟩⟩

theorem witness_EqualPairAborts :
    Measured (frameOn 63 true 1799) (afterMeasure (frameOn 63 true 1799)) ∧
      classify cfg (afterMeasure (frameOn 63 true 1799)).mres = .long ∧ (63 : BitVec 6).toNat % 2 = 1 :=
  ⟨⟨by decide, by decide, by decide⟩, by decide, by decide⟩

theorem witness_FirstSymbolIsStored :
    Measured (frameOn 62 true 1401) (afterMeasure (frameOn 62 true 1401)) ∧
      classify cfg (afterMeasure (frameOn 62 true 1401)).mres = .long ∧ (62 : BitVec 6).toNat % 2 = 0 :=
  ⟨⟨by decide, by decide, by decide⟩, by decide, by decide⟩

/-- At each index where the field changes. -/
theorem witness_UnequalPairFolds :
    (∀ i ∈ ([1, 51, 53, 55, 57, 61] : List (BitVec 6)),
      (frameOn i true 401).feed.take = none ∧ (frameOn i true 401).mreq = none ∧
        duMeasure (frameOn i true 401) = .done (afterMeasure (frameOn i true 401)) ∧
        classify cfg (afterMeasure (frameOn i true 401)).mres = .short ∧ i.toNat % 2 = 1 ∧ i.toNat < 63) := by decide

theorem witness_LastPairCompletesTheFrame :
    Measured (frameOn 63 true 599) (afterMeasure (frameOn 63 true 599)) ∧
      classify cfg (afterMeasure (frameOn 63 true 599)).mres = .short ∧ (63 : BitVec 6).toNat = 63 ∧
      (frameOn 63 true 599).cfg.continuous = false ∧
      ({ frameOn 63 true 599 with cfg := { cfg with continuous := true } } : State).cfg.continuous = true :=
  ⟨⟨by decide, by decide, by decide⟩, by decide, by decide, by decide, by decide⟩

/-- StepTiming, SequencingAdvances, ConfigurationIsFixed and RecordStandsUntilNextEmission ask for a step that answers:
a measured step, and an operation. -/
theorem witness_step_answers :
    next (step (seekOn 0xBB8)) (fun _ => true) = true ∧ next (step (frameOn 63 true 401)) (fun _ => true) = true ∧
      next (exec .start small) (fun _ => true) = true := by decide

theorem witness_EndedRunWaitsForReset :
    (State.ended { small with st := .halt } = true ∧ State.ended { small with setupErr := .pinUnset } = true) ∧
      (commanded 0b001 { small with st := .halt }).feed.take = some (.command 0b001, .stream []) := by decide

theorem witness_ContinuousNeverHalts :
    next (step { frameOn 63 true 0x1F4 with cfg := { cfg with continuous := true } }) (fun t => t.st == .seek) = true ∧
      (frameOn 63 true 0x1F4).st ≠ .halt := by decide

/-- A state inside a frame that meets the invariant and steps. -/
theorem witness_StepKeepsInvariant :
    State.Inv { frameOn 53 true 0x1F4 with sender := 0x3FFFFFF } ∧
      next (step { frameOn 53 true 0x1F4 with sender := 0x3FFFFFF }) (fun t => t.group) = true := by
  refine ⟨?_, by decide⟩
  unfold State.Inv
  decide

/-- The symbols of `n` pairs whose bit is 0. -/
def zeros (n : Nat) : List MresWord := (List.replicate n [500, 1600]).flatten

theorem mem_zeros {n : Nat} {r : MresWord} (h : r ∈ zeros n) : r = 500 ∨ r = 1600 := by
  simp only [zeros, List.mem_flatten, List.mem_replicate] at h
  obtain ⟨l, ⟨-, rfl⟩, hr⟩ := h
  simpa using hr

theorem zeros_getD : ∀ {n p : Nat}, p < n → (zeros n).getD (2 * p) 0 = 500 ∧ (zeros n).getD (2 * p + 1) 0 = 1600
  | _ + 1, 0, _ => ⟨rfl, rfl⟩
  | n + 1, p + 1, h => zeros_getD (n := n) (p := p) (Nat.lt_of_succ_lt_succ h)

theorem zeros_length (n : Nat) : (zeros n).length = 2 * n := by
  simp [zeros, Nat.mul_comm]

/-- AccumulatorsHoldFoldedPairs and ValidFrameDecodes: the symbols of any number of pairs, a whole frame's 64 among
them, and a preamble before them. -/
theorem witness_ValidSymbols (n : Nat) :
    ValidSymbols cfg (zeros n) ∧ (zeros n).length = 2 * n ∧ preMatch cfg 3000 = true := by
  have short : classify cfg 500 = .short := by decide
  have long : classify cfg 1600 = .long := by decide
  refine ⟨⟨fun r hr => ?_, fun p hp => ?_⟩, zeros_length n, by decide⟩
  · rcases mem_zeros hr with rfl | rfl
    · rw [short]; decide
    · rw [long]; decide
  · rw [zeros_length] at hp
    obtain ⟨h1, h2⟩ := zeros_getD (n := n) (p := p) (by omega)
    rw [h1, h2, short, long]; decide

theorem witness_AbortResumesInSeek :
    (frameOn 0 false 600).st = .frame ∧
      ({ frameOn 0 false 600 with feed := .stream [.result 600, .result 2901] } : State).feed =
        .stream (.result 600 :: .result 2901 :: []) ∧ classify cfg 600 = .invalid ∧
      ((63 : BitVec 6).toNat % 2 = 1 ∧ classify cfg 401 ≠ .invalid ∧
        (classify cfg 401 = .long ↔ (frameOn 63 false 401).prev = true)) := by decide

end Sys2Proof.Tests
end

/-! PROOFS. The whole state: what every step keeps (`spec/10_state.md`). `step_effect` says once, register by register,
what a step can have done, and `frame_outcome` what an operation of FRAME can have done; the statements on the
configuration, the record, the sequencing and the invariant are each a case split over them. -/

namespace Sys2Proof.Machine

/-! ### What a step does to the registers -/

/-- The measurement of a SEEK or FRAME step changes no register, however it ends (R105). -/
theorem duMeasure_same {s u : State} (h : (duMeasure s).EndsIn u) : SameRegisters s u :=
  measure_same (by rwa [duMeasure_eq] at h)

/-- The measurement of a SEEK or FRAME step leaves the MU idle when it returns (R32). -/
theorem duMeasure_idle {s u : State} (h : duMeasure s = .done u) : u.muPhase = .idle :=
  measure_idle (by rwa [duMeasure_eq] at h)

/-- MEASURE by itself returns a result, or is abandoned by a reset (R100, R240). -/
theorem exec_measure_cases {lvl : Level} {pz : Bool} {tmo : BitVec 30} {s t : State}
    (h : exec (.measure lvl pz tmo) s = .next t) :
    muMeasure lvl pz tmo s = .done t ∨ ∃ u, muMeasure lvl pz tmo s = .abandoned u ∧ t = resetBlock u := by
  simp only [exec, execMeasure] at h
  split at h
  · cases h; exact .inl ‹_›
  · cases h; exact .inr ⟨_, ‹_›, rfl⟩
  · cases h

/-- What a step that answers a next state can have done to the registers: a reset; an accepted command; nothing,
where the MU measures alone or the block waits; or an operation of SEEK or FRAME on the measured state, after the
defaults of R140. -/
inductive StepEffect (s t : State) : Prop where
  | reset (u : State) (hcfg : u.cfg = s.cfg) (h : t = resetBlock u)
  | start (feed : Feed) (hst : s.st = .idle) (herr : s.setupErr = .none)
      (h : t = { s with feed := feed, st := .seek, pausePending := false, recValid := false })
  | setupFailure (feed : Feed) (e : SetupErr) (hst : s.st = .idle) (herr : s.setupErr = .none) (he : e ≠ .none)
      (h : t = recordSetupFailure e { s with feed := feed })
  | quiet (same : SameRegisters { s with mreq := t.mreq } t) (idle : s.muPhase = .idle → t.muPhase = .idle)
  | seek (u : State) (hst : s.st = .seek) (same : SameRegisters s u) (idle : u.muPhase = .idle)
      (h : exec (selectOp 0b00 (selFields u)) (stepDefaults u) = .next t)
  | frame (u : State) (hst : s.st = .frame) (same : SameRegisters s u) (idle : u.muPhase = .idle)
      (h : exec (selectOp 0b01 (selFields u)) (stepDefaults u) = .next t)

/-- Every step that answers a next state does one of these. -/
theorem step_effect {s t : State} (h : step s = .next t) : StepEffect s t := by
  rcases step_cases h with ⟨feed, -, rfl⟩ | ⟨c, feed, i, -, hc, he⟩ | ⟨-, w, -, he⟩ | ⟨-, -, -, rfl⟩ |
    ⟨-, -, hst, ⟨u, hu, rfl⟩ | ⟨u, hu, he⟩⟩
  · exact .reset { s with feed := feed } rfl rfl
  · obtain ⟨hst, herr, h | h | h⟩ := command_cases hc he
    · exact .start feed hst herr h
    · exact .setupFailure feed _ hst herr (by decide) h
    · exact .setupFailure feed _ hst herr (by decide) h
  · obtain hm | ⟨u, hm, rfl⟩ := exec_measure_cases he
    · have same := measure_same (.inl hm)
      exact .quiet (by rw [same.mreq]; exact same) fun _ => measure_idle hm
    · exact .reset u (measure_same (.inr hm)).cfg rfl
  · exact .quiet (by constructor <;> rfl) id
  · exact .reset u (duMeasure_same (.inr hu)).cfg rfl
  · have same := duMeasure_same (.inl hu)
    rcases hst with hst | hst <;> rw [hst] at he
    · exact .seek u hst same (duMeasure_idle hu) he
    · exact .frame u hst same (duMeasure_idle hu) he

/-! ### The bounds of the accumulators (R158) -/

/-- The pair number is half the index (R76). -/
theorem pairNumber_eq (i : BitVec 6) : pairNumber i = i.toNat / 2 := by
  simp [pairNumber, Nat.shiftRight_eq_div_pow]

/-- The bounds of R158 after `n` pairs, one per accumulator. -/
structure FoldsWithin (n : Nat) (s : State) : Prop where
  sender : s.sender.toNat < 2 ^ min n 26
  group : s.group = true → 26 < n
  onBit : s.onBit = true → 27 < n
  recipient : s.recipient.toNat < 2 ^ (n - 28)

/-- The model's check is the bounds after half the index. -/
theorem foldsBounded_iff (s : State) : s.foldsBounded = true ↔ FoldsWithin (s.i.toNat / 2) s := by
  have imp (b : Bool) (p : Prop) : (b = false ∨ p) ↔ (b = true → p) := by cases b <;> simp
  simp only [State.foldsBounded, pairNumber_eq, Bool.and_eq_true, decide_eq_true_eq, Bool.or_eq_true,
    Bool.not_eq_true', imp]
  exact ⟨fun ⟨⟨⟨hs, hg⟩, ho⟩, hr⟩ => ⟨hs, hg, ho, hr⟩, fun ⟨hs, hg, ho, hr⟩ => ⟨⟨⟨hs, hg⟩, ho⟩, hr⟩⟩

/-- More pairs allow more. -/
theorem FoldsWithin.mono {n m : Nat} {s : State} (h : FoldsWithin n s) (hnm : n ≤ m) : FoldsWithin m s where
  sender := h.sender.trans_le (Nat.pow_le_pow_right (by decide) (min_le_min_right 26 hnm))
  group hg := (h.group hg).trans_le hnm
  onBit ho := (h.onBit ho).trans_le hnm
  recipient := h.recipient.trans_le (Nat.pow_le_pow_right (by decide) (Nat.sub_le_sub_right hnm 28))

/-- Before the last index the index advances without wrapping. -/
theorem index_succ {i : BitVec 6} (h : i.toNat < 63) : (i + 1).toNat = i.toNat + 1 := by
  rw [BitVec.toNat_add]; exact Nat.mod_eq_of_lt (Nat.succ_lt_succ h)

/-- A fold of one more pair is bounded by one more bit. -/
theorem foldBit_lt {w : Nat} (hw : 0 < w) {acc : BitVec w} {prev : Bool} {n : Nat} (h : acc.toNat < 2 ^ n) :
    (foldBit acc prev).toNat < 2 ^ (n + 1) := by
  have bit : prev.toNat ≤ 1 := Bool.toNat_le prev
  rw [foldBit_toNat hw, pow_succ]
  exact (Nat.mod_le _ _).trans_lt (by omega)

/-- FRM_SENDER keeps the bounds, one pair on (R152). -/
theorem foldsWithin_sender {n : Nat} {s : State} (f : SelFields) (h : FoldsWithin n s) (hn : n < 26) :
    FoldsWithin (n + 1) { advance f s with sender := foldBit s.sender s.prev } := by
  have next := h.mono n.le_succ
  have fold := foldBit_lt (prev := s.prev) (by decide) h.sender
  rw [min_eq_left (by omega)] at fold
  exact ⟨by rwa [min_eq_left (by omega)], next.group, next.onBit, next.recipient⟩

/-- FRM_GROUP keeps the bounds (R153). -/
theorem foldsWithin_group {n : Nat} {s : State} (f : SelFields) (h : FoldsWithin n s) (hn : 26 ≤ n) :
    FoldsWithin (n + 1) { advance f s with group := s.prev } :=
  have next := h.mono n.le_succ
  ⟨next.sender, fun _ => Nat.lt_succ_of_le hn, next.onBit, next.recipient⟩

/-- FRM_ON keeps the bounds (R154). -/
theorem foldsWithin_on {n : Nat} {s : State} (f : SelFields) (h : FoldsWithin n s) (hn : 27 ≤ n) :
    FoldsWithin (n + 1) { advance f s with onBit := s.prev } :=
  have next := h.mono n.le_succ
  ⟨next.sender, next.group, fun _ => Nat.lt_succ_of_le hn, next.recipient⟩

/-- FRM_RCPT keeps the bounds (R155). -/
theorem foldsWithin_recipient {n : Nat} {s : State} (f : SelFields) (h : FoldsWithin n s) (hn : 28 ≤ n) :
    FoldsWithin (n + 1) { advance f s with recipient := foldBit s.recipient s.prev } :=
  have next := h.mono n.le_succ
  have fold := foldBit_lt (prev := s.prev) (by decide) h.recipient
  ⟨next.sender, next.group, next.onBit, by rwa [Nat.sub_add_comm hn]⟩

/-- At index 0 the bounds leave nothing in the accumulators. -/
theorem pack_eq_zero {s : State} (hb : s.foldsBounded = true) (hi : s.i = 0) : s.pack = 0 := by
  have h0 : s.i.toNat = 0 := by rw [hi]; rfl
  obtain ⟨hs, hg, ho, hr⟩ := (foldsBounded_iff s).1 hb
  simp only [h0, Nat.zero_div, Nat.zero_min, Nat.zero_sub, pow_zero, Nat.lt_one_iff, Nat.not_lt_zero, imp_false,
    Bool.not_eq_true] at hs hg ho hr
  rw [State.pack, hg, ho, BitVec.eq_of_toNat_eq (y := 0) hs, BitVec.eq_of_toNat_eq (y := 0) hr]
  decide

/-! ### What an operation of FRAME does -/

/-- What an abort records: no data, where nothing is folded yet and the symbol was Invalid, or else a partial record
with a cause (R148, R149, R151). -/
def AbortRecords (s : State) (kind : RecKind) (cause : Cause) : Prop :=
  (kind = .nodata ∧ s.i = 0 ∧ (cause = .pulseTimeout ∨ cause = .symbolOutOfRange)) ∨
  (kind = .partialRec ∧ cause ≠ .none)

/-- The three ways an operation of FRAME can go on from index `s.i`: abort the frame, consume a symbol and advance, or
complete the frame at index 63. -/
inductive FrameOutcome (f : SelFields) (s t : State) : Prop where
  | abort (kind : RecKind) (cause : Cause) (hk : AbortRecords s kind cause) (h : t = frameAbort kind cause s)
  | symbol {prev group onBit : Bool} {sender : BitVec 26} {recipient : BitVec 4} (hi : s.i.toNat < 63)
      (hb : s.foldsBounded = true → t.foldsBounded = true)
      (h : t = { s with
        prev := prev, i := s.i + 1, sender := sender, group := group, onBit := onBit, recipient := recipient })
  | complete (hi : s.i = 63) (h : execFrmLast f s = .next t)

/-- An Invalid symbol has one of two causes (R201). -/
theorem invCause_cases (r : MresWord) : invCause r = .pulseTimeout ∨ invCause r = .symbolOutOfRange := by
  unfold invCause
  split
  · exact .inl rfl
  · exact .inr rfl

/-- A fold row asks for an odd index (R157). -/
theorem idx_odd_of_folds {f : SelFields} (h : f.folds = true) : f.idx.toNat % 2 = 1 := by
  simp only [SelFields.folds, Bool.and_eq_true, odd_eq, decide_eq_true_eq] at h
  exact h.2

/-- The first symbol of a pair advances, with the same pairs folded (R150). -/
theorem FrameOutcome.of_even {f : SelFields} {s : State} (hf : f.idx = s.i) (even : f.odd = false) :
    FrameOutcome f s (advance f s) := by
  rw [odd_eq, hf, decide_eq_false_iff_not] at even
  have hi : s.i.toNat < 63 := by have := s.i.isLt; omega
  have half : (s.i + 1).toNat / 2 = s.i.toNat / 2 := by rw [index_succ hi]; omega
  refine .symbol hi (fun hb => (foldsBounded_iff _).2 ?_) rfl
  obtain ⟨hs, hg, ho, hr⟩ := (foldsBounded_iff s).1 hb
  rw [advance_i, half]
  exact ⟨hs, hg, ho, hr⟩

/-- The second symbol of a pair advances, with one pair more folded, if the fold keeps the bounds (R152 to R155). -/
theorem FrameOutcome.of_fold {f : SelFields} {s t : State} {prev group onBit : Bool} {sender : BitVec 26}
    {recipient : BitVec 4} (hf : f.idx = s.i) (hfold : f.folds = true) (hi : f.idx.toNat ≤ 61)
    (hb : FoldsWithin (f.idx.toNat / 2) s → FoldsWithin (f.idx.toNat / 2 + 1) t)
    (h : t = { s with
      prev := prev, i := s.i + 1, sender := sender, group := group, onBit := onBit, recipient := recipient }) :
    FrameOutcome f s t := by
  have odd := idx_odd_of_folds hfold
  rw [hf] at hi hb odd
  have hlt : s.i.toNat < 63 := by omega
  have half : t.i.toNat / 2 = s.i.toNat / 2 + 1 := by rw [h, index_succ hlt]; omega
  refine .symbol hlt (fun b => (foldsBounded_iff t).2 ?_) h
  rw [half]
  exact hb ((foldsBounded_iff s).1 b)

/-- Every operation of FRAME, at the index its selector holds, does one of these (R148 to R157). -/
theorem frame_outcome {f : SelFields} {s t : State} (hf : f.idx = s.i)
    (h : exec (selectOp 0b01 f) s = .next t) : FrameOutcome f s t := by
  cases frame_cases h with
  | nodata hi _ h => exact .abort _ _ (.inl ⟨rfl, hf ▸ hi, invCause_cases _⟩) h
  | abort _ _ h =>
    refine .abort _ _ (.inr ⟨rfl, ?_⟩) h
    rcases invCause_cases s.mres with e | e <;> rw [e] <;> decide
  | viol _ _ _ h => exact .abort _ _ (.inr ⟨rfl, by decide⟩) h
  | even ho _ h => exact h ▸ .of_even hf ho
  | sender hfold hi h =>
    exact h ▸ .of_fold hf hfold (by omega) (fun b => foldsWithin_sender f b (by omega)) rfl
  | group hfold hi h =>
    exact h ▸ .of_fold hf hfold (by omega) (fun b => foldsWithin_group f b (by omega)) rfl
  | on hfold hi h =>
    exact h ▸ .of_fold hf hfold (by omega) (fun b => foldsWithin_on f b (by omega)) rfl
  | rcpt hfold hi hi' h =>
    exact h ▸ .of_fold hf hfold hi' (fun b => foldsWithin_recipient f b (by omega)) rfl
  | last hfold hi h => exact .complete (hf ▸ BitVec.eq_of_toNat_eq hi) h

/-! ### The invariant of the reachable states -/

/-- The invariant holds of every reset state (R22, R38). -/
theorem resetWith_inv (cfg : Config) (now : Clock) : (State.resetWith cfg now).Inv := by
  simp [State.Inv, State.resetWith, State.recordFits]

/-- The reset establishes the invariant in any state (R240). -/
theorem resetBlock_inv (s : State) : (resetBlock s).Inv := resetWith_inv s.cfg s.now

/-- The invariant speaks of the block's registers and the MU's phase alone. -/
theorem SameRegisters.inv {s t : State} (same : SameRegisters s t)
    (idle : s.muPhase = .idle → t.muPhase = .idle) (hs : s.Inv) : t.Inv := by
  obtain ⟨hi, hfold, herr, hmu, hrec, hpause, hvalid, hhalt⟩ := hs
  simp only [State.Inv, State.foldsBounded, State.recordFits, same.cfg, same.st, same.i, same.sender, same.group,
    same.onBit, same.recipient, same.pausePending, same.setupErr, same.recValid, same.recKind, same.recWord,
    same.recCause]
  exact ⟨hi, hfold, herr, idle hmu, hrec, hpause, hvalid, hhalt⟩

/-- Taking the record's validity back leaves the record registers fitting together. -/
theorem recordFits_invalidate {s : State} (h : s.recordFits = true) :
    State.recordFits { s with recValid := false } = true := by
  revert h
  cases hk : s.recKind <;> simp +contextual [State.recordFits, hk]

/-- The defaults of a SEEK or FRAME step keep the invariant (R140). -/
theorem stepDefaults_inv {s : State} (hst : s.st ≠ .halt) (hs : s.Inv) : (stepDefaults s).Inv := by
  obtain ⟨hi, hfold, herr, hmu, hrec, -, -, hhalt⟩ := hs
  exact ⟨hi, hfold, herr, hmu, recordFits_invalidate hrec, by simp, by simpa using hst, hhalt⟩

/-- START keeps the invariant (R142). -/
theorem start_inv {s : State} (feed : Feed) (hst : s.st = .idle) (herr : s.setupErr = .none) (hs : s.Inv) :
    State.Inv { s with feed := feed, st := .seek, pausePending := false, recValid := false } := by
  obtain ⟨hi, -, -, hmu, hrec, -, -, -⟩ := hs
  exact ⟨fun _ => hi (by simp [hst]), by simp, fun h => absurd herr h, hmu, recordFits_invalidate hrec, by simp,
    by simp, by simp⟩

/-- A setup failure keeps the invariant (R204). -/
theorem recordSetupFailure_inv {s : State} (e : SetupErr) (hst : s.st = .idle) (hs : s.Inv) :
    (recordSetupFailure e s).Inv := by
  obtain ⟨hi, hfold, -, hmu, hrec, hpause, -, hhalt⟩ := hs
  have quiet : s.pausePending = false := by simpa [hst] using hpause
  exact ⟨hi, hfold, fun _ => hst, hmu, recordFits_invalidate hrec, hpause, by simp [quiet, hst], hhalt⟩

/-- SEEK_HIT enters FRAME with the invariant (R147). -/
theorem seekHit_inv {s : State} (hst : s.st = .seek) (hpz : s.pausePending = false) (hs : s.Inv) :
    State.Inv { s with
      st := .frame, i := 0, prev := false, sender := 0, group := false, onBit := false, recipient := 0 } := by
  obtain ⟨-, -, herr, hmu, hrec, -, hvalid, -⟩ := hs
  have fine : s.setupErr = .none := by simpa [hst] using herr
  have notValid : s.recValid = false := by simpa [hst, hpz] using hvalid
  exact ⟨by simp, fun _ => by simp [State.foldsBounded], fun h => absurd fine h, hmu, hrec, by simp [hpz],
    by simp [hpz, notValid], by simp⟩

/-- A symbol consumed in FRAME keeps the invariant, if the accumulators stay bounded (R150 to R155). -/
theorem symbol_inv {s : State} {i : BitVec 6} {prev group onBit : Bool} {sender : BitVec 26} {recipient : BitVec 4}
    (hst : s.st = .frame)
    (hb : State.foldsBounded { s with
      prev := prev, i := i, sender := sender, group := group, onBit := onBit, recipient := recipient } = true)
    (hs : s.Inv) :
    State.Inv { s with
      prev := prev, i := i, sender := sender, group := group, onBit := onBit, recipient := recipient } := by
  obtain ⟨-, -, herr, hmu, hrec, hpause, hvalid, hhalt⟩ := hs
  exact ⟨fun h => absurd hst h, fun _ => hb, herr, hmu, hrec, hpause, hvalid, hhalt⟩

/-- The record of an abort fits together: at index 0 nothing is folded, so its word is 0 (R148, R183). -/
theorem frameAbort_recordFits {s : State} {kind : RecKind} {cause : Cause} (hk : AbortRecords s kind cause)
    (hb : s.foldsBounded = true) : (frameAbort kind cause s).recordFits = true := by
  rcases hk with ⟨rfl, hi, hc⟩ | ⟨rfl, hc⟩
  · simpa [State.recordFits, pack_eq_zero hb hi] using hc
  · simpa [State.recordFits] using hc

/-- FrameAbort goes back to SEEK with the invariant (R202). -/
theorem frameAbort_inv {s : State} {kind : RecKind} {cause : Cause} (hst : s.st = .frame)
    (hk : AbortRecords s kind cause) (hs : s.Inv) : (frameAbort kind cause s).Inv := by
  obtain ⟨-, hfold, herr, hmu, -, -, -, -⟩ := hs
  have fine : s.setupErr = .none := by simpa [hst] using herr
  exact ⟨fun _ => rfl, by simp, fun h => absurd fine h, hmu, frameAbort_recordFits hk (hfold hst), fun _ => rfl,
    by simp, by simp⟩

/-- FRM_LAST ends the frame with the invariant, single-shot or continuous (R156, R163). -/
theorem frmLast_inv {f : SelFields} {s t : State} (hst : s.st = .frame) (h : execFrmLast f s = .next t)
    (hs : s.Inv) : t.Inv := by
  obtain ⟨-, -, herr, hmu, -, hpause, -, -⟩ := hs
  have fine : s.setupErr = .none := by simpa [hst] using herr
  have noPause : s.pausePending = false := by simpa [hst] using hpause
  cases h
  cases hc : s.cfg.continuous <;>
    simp [State.Inv, State.recordFits, emit, hc, fine, noPause, hmu]

/-- An operation of SEEK keeps the invariant. -/
theorem seek_inv {f : SelFields} {s t : State} (hst : s.st = .seek) (hpz : s.pausePending = false)
    (h : exec (selectOp 0b00 f) s = .next t) (hs : s.Inv) : t.Inv := by
  obtain ⟨-, rfl⟩ | ⟨-, rfl⟩ := seek_cases h
  · exact hs
  · exact seekHit_inv hst hpz hs

/-- An operation of FRAME, at the index its selector holds, keeps the invariant. -/
theorem frame_inv {f : SelFields} {s t : State} (hst : s.st = .frame) (hf : f.idx = s.i)
    (h : exec (selectOp 0b01 f) s = .next t) (hs : s.Inv) : t.Inv := by
  have bounded : s.foldsBounded = true := by
    obtain ⟨-, hfold, -⟩ := hs
    exact hfold hst
  cases frame_outcome hf h with
  | abort kind cause hk h => exact h ▸ frameAbort_inv hst hk hs
  | symbol _ hb h =>
    subst h
    exact symbol_inv hst (hb bounded) hs
  | complete _ h => exact frmLast_inv hst h hs

/-- Settles O39, by the case split over what a step does to the registers. -/
theorem stepKeepsInvariant : Obligations.StepKeepsInvariant := by
  unfold Obligations.StepKeepsInvariant
  intro s t hs h
  cases step_effect h with
  | reset u _ h => exact h ▸ resetBlock_inv u
  | start feed hst herr h => exact h ▸ start_inv feed hst herr hs
  | setupFailure feed e hst _ _ h => exact h ▸ recordSetupFailure_inv (s := { s with feed := feed }) e hst hs
  | quiet same idle => exact same.inv idle hs
  | seek u hst same idle h =>
    have hu : u.st = .seek := same.st.trans hst
    exact seek_inv (s := stepDefaults u) hu rfl h (stepDefaults_inv (by simp [hu]) (same.inv (fun _ => idle) hs))
  | frame u hst same idle h =>
    have hu : u.st = .frame := same.st.trans hst
    exact frame_inv (s := stepDefaults u) hu rfl h (stepDefaults_inv (by simp [hu]) (same.inv (fun _ => idle) hs))

/-- Settles O38: both are reset states of some configuration and clock. -/
theorem invariantAtReset : Obligations.InvariantAtReset :=
  ⟨resetWith_inv _ _, resetWith_inv⟩

/-- A reset state holds the value R22 gives in every register, and the MU is idle (R38). -/
theorem resetWith_isReset (cfg : Config) (now : Clock) :
    IsReset cfg now (.stream []) (State.resetWith cfg now) := by
  simp [IsReset, State.resetWith]

/-- Settles O17: the reset state of the source's configuration and the platform's clock. -/
theorem resetState : Obligations.ResetState :=
  resetWith_isReset Config.atReset Config.openClockStart

/-! ### The configuration is fixed (R34) -/

/-- No operation writes the configuration. -/
theorem exec_cfg {i : Instr} {s t : State} (h : exec i s = .next t) : t.cfg = s.cfg := by
  cases i with
  | measure lvl pz tmo =>
    obtain hm | ⟨u, hm, rfl⟩ := exec_measure_cases h
    · exact (measure_same (.inl hm)).cfg
    · exact (measure_same (.inr hm)).cfg
  | start | failPin | failInit =>
    simp only [exec, execStart, execFailPin, execFailInit] at h
    split at h <;> cases h
    rfl
  | _ => cases h; rfl

/-- Settles O33: a step's operation runs on a state with the configuration of the step's start. -/
theorem configurationIsFixed : Obligations.ConfigurationIsFixed := by
  refine ⟨fun _ _ _ => exec_cfg, fun s t h => ?_⟩
  cases step_effect h with
  | reset u hcfg h => rw [h, resetBlock_cfg, hcfg]
  | start feed _ _ h => rw [h]
  | setupFailure feed e _ _ _ h => rw [h, recordSetupFailure_cfg]
  | quiet same _ => exact same.cfg
  | seek u _ same _ h => rw [exec_cfg h, stepDefaults_cfg, same.cfg]
  | frame u _ same _ h => rw [exec_cfg h, stepDefaults_cfg, same.cfg]

/-! ### The record and the sequencing state -/

/-- FRM_LAST emits a complete record and leaves FRAME at index 0 (R156). -/
theorem frmLast_emits {f : SelFields} {s t : State} (h : execFrmLast f s = .next t) :
    t.recValid = true ∧ t.recKind = .complete ∧ t.i = 0 ∧ (t.st = .seek ∨ t.st = .halt) := by
  cases h
  refine ⟨rfl, rfl, rfl, ?_⟩
  cases s.cfg.continuous
  · exact .inr rfl
  · exact .inl rfl

/-- Settles O34: FRAME's abort and FRM_LAST emit, a reset clears, and nothing else writes the record. -/
theorem recordStandsUntilNextEmission : Obligations.RecordStandsUntilNextEmission := by
  intro s t h
  cases step_effect h with
  | reset u _ h => subst h; exact .inr (.inr ⟨rfl, rfl, rfl, rfl, rfl⟩)
  | start feed _ _ h => subst h; exact .inl ⟨rfl, rfl, rfl⟩
  | setupFailure feed e _ _ _ h => subst h; exact .inl ⟨rfl, rfl, rfl⟩
  | quiet same _ => exact .inl ⟨same.recKind, same.recWord, same.recCause⟩
  | seek u _ same _ h =>
    have stands : t.recKind = u.recKind ∧ t.recWord = u.recWord ∧ t.recCause = u.recCause := by
      obtain ⟨-, rfl⟩ | ⟨-, rfl⟩ := seek_cases h <;> exact ⟨rfl, rfl, rfl⟩
    exact .inl (by rwa [← same.recKind, ← same.recWord, ← same.recCause])
  | frame u hst same _ h =>
    cases frame_outcome rfl h with
    | abort kind cause hk h =>
      subst h
      have emitted : kind ≠ .none := by rcases hk with ⟨rfl, -⟩ | ⟨rfl, -⟩ <;> decide
      exact .inr (.inl ⟨hst, rfl, emitted, rfl, .inl rfl⟩)
    | symbol _ _ h => subst h; exact .inl ⟨same.recKind, same.recWord, same.recCause⟩
    | complete _ h =>
      obtain ⟨hvalid, hkind, hi, hend⟩ := frmLast_emits h
      exact .inr (.inl ⟨hst, hvalid, by simp [hkind], hi, hend⟩)

/-- Settles O37, by the cases of SEEK's and FRAME's operations. -/
theorem sequencingAdvances : Obligations.SequencingAdvances := by
  rintro s u t ⟨hfeed, hreq, hu⟩ h
  have same := duMeasure_same (.inl hu)
  refine ⟨fun hst => ?_, fun hst => ?_⟩
  · rw [step_of_duMeasure hfeed hreq (.inl hst) hu, hst] at h
    obtain ⟨-, rfl⟩ | ⟨-, rfl⟩ := seek_cases h
    · exact .inl ⟨same.st.trans hst, same.i⟩
    · exact .inr ⟨rfl, rfl⟩
  · rw [step_of_duMeasure hfeed hreq (.inr hst) hu, hst] at h
    cases frame_outcome rfl h with
    | abort kind cause _ h => subst h; exact .inr (.inl ⟨rfl, rfl⟩)
    | symbol hi _ h =>
      subst h
      refine .inl ⟨same.st.trans hst, ?_⟩
      rw [← same.i]
      exact index_succ hi
    | complete hi h =>
      obtain ⟨-, -, hi', hend⟩ := frmLast_emits h
      exact hend.elim (fun e => .inr (.inl ⟨e, hi'⟩)) (fun e => .inr (.inr ⟨same.i ▸ hi, e, hi'⟩))

end Sys2Proof.Machine

/-! PROOFS. The encoding (`spec/30_encoding.md`): the decoder and the encoder are inverse on well-formed operations, and
each selector word has one row of smallest priority. `selectOp` is the decoder of selectors as one case split over the
fields; each row's condition on the fields is read off it. -/

namespace Sys2Proof

/-! ### Selectors -/

/-- A selector word is its `ST` and its fields. -/
theorem SelFields.toWord_ofWord (w : SelWord) : (SelFields.ofWord w).toWord (w.extractLsb' 10 2) = w := by
  have h : w.extractLsb' 10 2 ++ w.extractLsb' 8 2 ++ BitVec.ofBool (w.getLsbD 7) ++ BitVec.ofBool (w.getLsbD 6) ++
      w.extractLsb' 0 6 = w := by
    ext k hk
    simp only [BitVec.getElem_append, BitVec.getElem_extractLsb']
    interval_cases k <;> simp
  exact h

/-- Decoding an encoded selector gives the operation it selects. -/
theorem decode_encodeSel {st : BitVec 2} {f : SelFields} {i : Instr} (h : selectOp st f = i) :
    decode (encodeSel st f).1 (encodeSel st f).2 = .ok i := by
  have fits : ¬ 2 ^ Format.sel.width ≤ ((f.toWord st).setWidth 32).toNat :=
    Nat.not_le.mpr (Laws.FormatFits.sel st f)
  have word : ((f.toWord st).setWidth 32).setWidth 12 = f.toWord st := by simp
  simp only [encodeSel, decode, if_neg fits, word, decodeSel_toWord, h]

/-- A fold row asks for a valid symbol, different from `prev`, at an odd index. -/
theorem SelFields.folds_iff (f : SelFields) : f.folds = true ↔ f.invalid = false ∧ f.eq = false ∧ f.odd = true := by
  simp [SelFields.folds, and_assoc]

/-- The two rows of an Invalid symbol, FRM_NODATA's at index 0 (R148, R149). -/
theorem selectOp_of_invalid {f : SelFields} (h : f.invalid = true) :
    selectOp 0b01 f = if f.idx = 0 then .frmNodata f else .frmAbort f := by
  simp [selectOp, h]

/-- The fold rows differ in the index alone (R152 to R156). -/
theorem selectOp_of_folds {f : SelFields} (h : f.folds = true) :
    selectOp 0b01 f =
      if f.idx = 53 then .frmGroup f
      else if f.idx = 55 then .frmOn f
      else if f.idx = 63 then .frmLast f
      else if 57 ≤ f.idx.toNat then .frmRcpt f
      else .frmSender f := by
  obtain ⟨valid, differs, odd⟩ := f.folds_iff.mp h
  simp [selectOp, valid, differs, odd]

/-! The index of each fold row. -/

theorem selectOp_group {f : SelFields} (h : f.folds = true) (hi : f.idx = 53) : selectOp 0b01 f = .frmGroup f := by
  rw [selectOp_of_folds h, if_pos hi]

theorem selectOp_on {f : SelFields} (h : f.folds = true) (hi : f.idx = 55) : selectOp 0b01 f = .frmOn f := by
  rw [selectOp_of_folds h, hi]; rfl

theorem selectOp_last {f : SelFields} (h : f.folds = true) (hi : f.idx = 63) : selectOp 0b01 f = .frmLast f := by
  rw [selectOp_of_folds h, hi]; rfl

theorem selectOp_sender {f : SelFields} (h : f.folds = true) (hi : f.idx.toNat ≤ 51) :
    selectOp 0b01 f = .frmSender f := by
  have other (k : BitVec 6) (hk : 51 < k.toNat) : f.idx ≠ k := fun e => by rw [e] at hi; omega
  rw [selectOp_of_folds h, if_neg (other 53 (by decide)), if_neg (other 55 (by decide)),
    if_neg (other 63 (by decide)), if_neg (by omega)]

theorem selectOp_rcpt {f : SelFields} (h : f.folds = true) (hi : f.idx = 57 ∨ f.idx = 59 ∨ f.idx = 61) :
    selectOp 0b01 f = .frmRcpt f := by
  rw [selectOp_of_folds h]
  rcases hi with e | e | e <;> rw [e] <;> rfl

/-- Every request word reads back (R71). -/
theorem decodeMreq_encodeMreq (lvl : Level) (pz : Bool) (tmo : BitVec 30) :
    decodeMreq (encodeMreq lvl pz tmo) = .measure lvl pz tmo := by
  simp only [decodeMreq, Machine.mreqLevel_encode, Machine.mreqPause_encode, Machine.mreqTimeout_encode]

/-- A request word always fits its format (R71, R79). -/
theorem decode_mreq (w : MreqWord) : decode .mreq w = .ok (decodeMreq w) :=
  if_neg (Nat.not_le.mpr w.isLt)

/-- Settles O1, by the rows of R79. -/
theorem decodeOfEncode : Obligations.DecodeOfEncode := by
  intro i h
  cases i with
  | idleWait f => exact decode_encodeSel rfl
  | halted f => exact decode_encodeSel rfl
  | seekMiss f =>
    have miss : f.pre = false := by simpa [Instr.wellFormed] using h
    exact decode_encodeSel (by simp [selectOp, miss])
  | seekHit f =>
    have hit : f.pre = true := h
    exact decode_encodeSel (by simp [selectOp, hit])
  | frmNodata f =>
    obtain ⟨invalid, first⟩ : f.invalid = true ∧ f.idx = 0 := by simpa [Instr.wellFormed] using h
    exact decode_encodeSel ((selectOp_of_invalid invalid).trans (if_pos first))
  | frmAbort f =>
    obtain ⟨invalid, later⟩ : f.invalid = true ∧ f.idx ≠ 0 := by simpa [Instr.wellFormed] using h
    exact decode_encodeSel ((selectOp_of_invalid invalid).trans (if_neg later))
  | frmEven f =>
    obtain ⟨valid, even⟩ : f.invalid = false ∧ f.odd = false := by simpa [Instr.wellFormed] using h
    exact decode_encodeSel (by simp [selectOp, valid, even])
  | frmViol f =>
    obtain ⟨⟨valid, equal⟩, odd⟩ : (f.invalid = false ∧ f.eq = true) ∧ f.odd = true := by
      simpa [Instr.wellFormed] using h
    exact decode_encodeSel (by simp [selectOp, valid, equal, odd])
  | frmSender f =>
    obtain ⟨folds, hi⟩ : f.folds = true ∧ f.idx.toNat ≤ 51 := by simpa [Instr.wellFormed] using h
    exact decode_encodeSel (selectOp_sender folds hi)
  | frmGroup f =>
    obtain ⟨folds, hi⟩ : f.folds = true ∧ f.idx = 53 := by simpa [Instr.wellFormed] using h
    exact decode_encodeSel (selectOp_group folds hi)
  | frmOn f =>
    obtain ⟨folds, hi⟩ : f.folds = true ∧ f.idx = 55 := by simpa [Instr.wellFormed] using h
    exact decode_encodeSel (selectOp_on folds hi)
  | frmRcpt f =>
    obtain ⟨folds, hi⟩ : f.folds = true ∧ (f.idx = 57 ∨ f.idx = 59 ∨ f.idx = 61) := by
      simpa [Instr.wellFormed, or_assoc] using h
    exact decode_encodeSel (selectOp_rcpt folds hi)
  | frmLast f =>
    obtain ⟨folds, hi⟩ : f.folds = true ∧ f.idx = 63 := by simpa [Instr.wellFormed] using h
    exact decode_encodeSel (selectOp_last folds hi)
  | start => rfl
  | failPin => rfl
  | failInit => rfl
  | measure lvl pz tmo => exact (decode_mreq _).trans (congrArg _ (decodeMreq_encodeMreq lvl pz tmo))
  | reset => rfl

/-- Settles O4: each word is the encoding of its operation. -/
theorem tableWordsDecode : Obligations.TableWordsDecode :=
  ⟨decodeOfEncode (.idleWait ⟨0b00, false, false, 0⟩) rfl, decodeOfEncode (.seekHit ⟨0b10, true, true, 0⟩) rfl,
    decodeOfEncode (.frmAbort ⟨0b10, false, true, 1⟩) rfl, decodeOfEncode (.frmSender ⟨0b01, false, false, 51⟩) rfl,
    decodeOfEncode .failPin rfl, decodeOfEncode (.measure .high false 100) rfl, decodeOfEncode .reset rfl⟩

/-- A fold row from index 57 up that is not FRM_LAST's is FRM_RCPT's (R155). -/
theorem rcpt_index {f : SelFields} (folds : f.folds = true) (hi : 57 ≤ f.idx.toNat) (last : f.idx ≠ 63) :
    f.idx = 57 ∨ f.idx = 59 ∨ f.idx = 61 := by
  obtain ⟨-, -, odd⟩ := f.folds_iff.mp folds
  have indices : ∀ i : BitVec 6, i.getLsbD 0 = true → 57 ≤ i.toNat → i ≠ 63 → i = 57 ∨ i = 59 ∨ i = 61 := by decide
  exact indices f.idx odd hi last

/-- A fold row below index 57 that is neither FRM_GROUP's nor FRM_ON's is FRM_SENDER's (R152). -/
theorem sender_index {f : SelFields} (folds : f.folds = true) (hi : ¬ 57 ≤ f.idx.toNat) (group : f.idx ≠ 53)
    (on : f.idx ≠ 55) : f.idx.toNat ≤ 51 := by
  obtain ⟨-, -, odd⟩ := f.folds_iff.mp folds
  have indices : ∀ i : BitVec 6, i.getLsbD 0 = true → ¬ 57 ≤ i.toNat → i ≠ 53 → i ≠ 55 → i.toNat ≤ 51 := by decide
  exact indices f.idx odd hi group on

/-- An operation that is well formed and encodes to a given selector. -/
def Instr.StandsFor (i : Instr) (st : BitVec 2) (f : SelFields) : Prop :=
  encode i = encodeSel st f ∧ i.wellFormed = true

/-- What a fold row selects is well formed. -/
theorem selectOp_fold_standsFor {f : SelFields} (folds : f.folds = true) : (selectOp 0b01 f).StandsFor 0b01 f := by
  rw [selectOp_of_folds folds]
  split
  · next hi => exact ⟨rfl, by simp [Instr.wellFormed, folds, hi]⟩
  split
  · next hi => exact ⟨rfl, by simp [Instr.wellFormed, folds, hi]⟩
  split
  · next hi => exact ⟨rfl, by simp [Instr.wellFormed, folds, hi]⟩
  next group on last =>
  split
  · next hi => exact ⟨rfl, by simpa [Instr.wellFormed, folds, or_assoc] using rcpt_index folds hi last⟩
  · next hi => exact ⟨rfl, by simpa [Instr.wellFormed, folds] using sender_index folds hi group on⟩

/-- What a selector selects is well formed and encodes to it. -/
theorem selectOp_standsFor (st : BitVec 2) (f : SelFields) : (selectOp st f).StandsFor st f := by
  have hst : ∀ st : BitVec 2, st = 0b00 ∨ st = 0b01 ∨ st = 0b10 ∨ st = 0b11 := by decide
  obtain rfl | rfl | rfl | rfl := hst st
  · cases pre : f.pre <;> simp [Instr.StandsFor, selectOp, encode, Instr.wellFormed, pre]
  · cases hc : f.invalid
    · cases ho : f.odd
      · simp [Instr.StandsFor, selectOp, encode, Instr.wellFormed, hc, ho]
      · cases he : f.eq
        · exact selectOp_fold_standsFor (f.folds_iff.mpr ⟨hc, he, ho⟩)
        · simp [Instr.StandsFor, selectOp, encode, Instr.wellFormed, hc, ho, he]
    · rw [selectOp_of_invalid hc]
      split
      · next hi => exact ⟨rfl, by simp [Instr.wellFormed, hc, hi]⟩
      · next hi => exact ⟨rfl, by simpa [Instr.wellFormed, hc] using hi⟩
  · exact ⟨rfl, rfl⟩
  · exact ⟨rfl, rfl⟩

/-- The decoder of selectors never fails (R75). -/
theorem decodeSel_eq (w : SelWord) : decodeSel w = .ok (selectOp (w.extractLsb' 10 2) (SelFields.ofWord w)) := by
  conv_lhs => rw [← SelFields.toWord_ofWord w]
  exact decodeSel_toWord _ _

/-- The commands of R77. -/
theorem decodeCtrl_ok {c : CtrlWord} {i : Instr} (h : decodeCtrl c = .ok i) :
    (c = 0b001 ∧ i = .start) ∨ (c = 0b010 ∧ i = .failPin) ∨ (c = 0b011 ∧ i = .failInit) := by
  unfold decodeCtrl at h
  split at h
  · cases h
  split at h
  · cases h; exact .inl ⟨‹_›, rfl⟩
  split at h
  · cases h; exact .inr (.inl ⟨‹_›, rfl⟩)
  split at h
  · cases h; exact .inr (.inr ⟨‹_›, rfl⟩)
  · cases h

/-- A request word is the encoding of its fields (R71). -/
theorem encodeMreq_fields (w : MreqWord) : encodeMreq (mreqLevel w) (mreqPause w) (mreqTimeout w) = w := by
  have bit : ∀ b : Bool, (Level.ofBit b).bit = b := by decide
  have h : BitVec.ofBool (w.getLsbD 31) ++ BitVec.ofBool (w.getLsbD 30) ++ w.extractLsb' 0 30 = w := by
    ext k hk
    simp only [BitVec.getElem_append, BitVec.getElem_extractLsb']
    interval_cases k <;> simp
  simp only [encodeMreq, mreqLevel, mreqPause, mreqTimeout, bit]
  exact h

/-- A word that fits `n` bits is told by its low `n` bits. -/
theorem eq_of_setWidth_eq {n : Nat} {w : BitVec 32} {x : BitVec n} (fits : w.toNat < 2 ^ n)
    (h : w.setWidth n = x) : w = x.setWidth 32 := by
  apply BitVec.eq_of_toNat_eq
  rw [← h]
  simp only [BitVec.toNat_setWidth, Nat.mod_eq_of_lt fits, Nat.mod_eq_of_lt w.isLt]

/-- Settles O2, by the formats of R79. -/
theorem encodeOfDecode : Obligations.EncodeOfDecode := by
  intro fmt w i h
  unfold decode at h
  split at h
  · cases h
  next fits =>
  rw [Nat.not_le] at fits
  cases fmt with
  | sel =>
    rw [decodeSel_eq] at h
    cases h
    obtain ⟨henc, hwf⟩ := selectOp_standsFor ((w.setWidth 12).extractLsb' 10 2) (SelFields.ofWord (w.setWidth 12))
    refine ⟨?_, hwf⟩
    rw [henc, encodeSel, SelFields.toWord_ofWord]
    exact congrArg _ (eq_of_setWidth_eq fits rfl).symm
  | ctrl =>
    obtain ⟨hc, rfl⟩ | ⟨hc, rfl⟩ | ⟨hc, rfl⟩ := decodeCtrl_ok h <;>
      exact ⟨by rw [eq_of_setWidth_eq fits hc]; rfl, rfl⟩
  | mreq =>
    cases h
    exact ⟨congrArg _ (encodeMreq_fields w), rfl⟩
  | rst =>
    simp only [decodeRst] at h
    split at h <;> cases h
    next hb => exact ⟨by rw [eq_of_setWidth_eq fits hb]; rfl, rfl⟩

/-! ### The row of a selector word (R75) -/

/-- Where no row is picked, none matches. -/
theorem not_hits_of_pickRow_none {w : SelWord} : ∀ {rows : List SelRow}, pickRow w rows = none →
    ∀ r ∈ rows, r.hits w ≠ true
  | [], _, r, hr => nomatch hr
  | x :: rows, h, r, hr => by
    simp only [pickRow] at h
    split at h
    · split at h
      · cases h
      · split at h <;> cases h
    next miss =>
    rcases List.mem_cons.mp hr with rfl | hr
    · exact miss
    · exact not_hits_of_pickRow_none h r hr

/-- The picked row matches, and no row that matches has a smaller priority. -/
theorem pickRow_spec {w : SelWord} : ∀ {rows : List SelRow} {r : SelRow}, pickRow w rows = some r →
    r.hits w = true ∧ ∀ r' ∈ rows, r'.hits w = true → r.priority ≤ r'.priority
  | x :: rows, r, h => by
    simp only [pickRow, List.forall_mem_cons] at h ⊢
    split at h
    next hx =>
      split at h
      next hnone =>
        cases h
        exact ⟨hx, fun _ => le_rfl, fun r' hr' hit => absurd hit (not_hits_of_pickRow_none hnone r' hr')⟩
      next best hbest =>
        obtain ⟨hit, least⟩ := pickRow_spec hbest
        split at h <;> cases h
        next le => exact ⟨hx, fun _ => le_rfl, fun r' hr' hit' => le.trans (least r' hr' hit')⟩
        next gt => exact ⟨hit, fun _ => (Nat.lt_of_not_le gt).le, least⟩
    next miss =>
      obtain ⟨hit, least⟩ := pickRow_spec h
      exact ⟨hit, fun hx => absurd hx miss, least⟩

/-- Two patterns that a word matches agree where both masks look. -/
theorem bits_agree_of_hits {w : SelWord} {r r' : SelRow} (h : r.hits w = true) (h' : r'.hits w = true) :
    r.bits &&& r'.mask = r'.bits &&& r.mask := by
  have e : w &&& r.mask = r.bits := by simpa [SelRow.hits] using h
  have e' : w &&& r'.mask = r'.bits := by simpa [SelRow.hits] using h'
  rw [← e, ← e', BitVec.and_assoc, BitVec.and_assoc, BitVec.and_comm r.mask]

/-- Rows of equal priority with patterns that agree where both masks look are one row. -/
theorem row_eq_of_bits_agree : ∀ r ∈ selTable, ∀ r' ∈ selTable, r.priority = r'.priority →
    r.bits &&& r'.mask = r'.bits &&& r.mask → r = r' := by
  have keys : ∀ r ∈ selTable, ∀ r' ∈ selTable, r.priority = r'.priority →
      r.bits &&& r'.mask = r'.bits &&& r.mask → r.key = r'.key := by decide
  exact fun r hr r' hr' hp hb => row_eq_of_key r hr r' hr' (keys r hr r' hr' hp hb)

/-- The row the table picks for a word. -/
theorem pickRow_word (w : SelWord) :
    pickRow w selTable = some (selectRow (w.extractLsb' 10 2) (SelFields.ofWord w)) := by
  conv_lhs => rw [← SelFields.toWord_ofWord w]
  exact pickRow_toWord _ _

/-- Settles O3: `pickRow` finds a matching row of least priority, and rows of equal priority match no common word. -/
theorem selectorHasOneSmallestRow : Obligations.SelectorHasOneSmallestRow := by
  refine ⟨fun w => ?_, fun f invalid first => ?_, fun f folds => ⟨?_, ?_, ?_, ?_⟩⟩
  · have picked := pickRow_word w
    have member := pickRow_mem picked
    obtain ⟨hit, least⟩ := pickRow_spec picked
    refine ⟨_, member, hit, fun r' hr' hit' => ?_, by simp only [decodeSel, picked]⟩
    rcases (least r' hr' hit').eq_or_lt with tie | lt
    · exact .inl (row_eq_of_bits_agree r' hr' _ member tie.symm (bits_agree_of_hits hit' hit))
    · exact .inr lt
  · rw [decodeSel_toWord, selectOp_of_invalid invalid, if_pos first]
  · exact fun hi => by rw [decodeSel_toWord, selectOp_group folds hi]
  · exact fun hi => by rw [decodeSel_toWord, selectOp_on folds hi]
  · exact fun hi => by rw [decodeSel_toWord, selectOp_rcpt folds hi]
  · exact fun hi => by rw [decodeSel_toWord, selectOp_last folds hi]

end Sys2Proof

/-! PROOFS. The words beside the operation map (R78, R108), and the commands: which a step accepts (R77, R80), and how
one that comes inside a measurement is refused. `muMeasure_meetsInput` says once where a measurement meets a host
input, whether a command or the reset. -/

namespace Sys2Proof.Machine

/-- The default request (R7, R108). -/
theorem duRequest_default {s : State} (h : s.cfg.measureTimeoutUs = 1000000) :
    duRequest s = if s.pausePending then 0x400F4240 else 0x000F4240 := by
  rw [duRequest, h]
  cases s.pausePending <;> rfl

/-- Settles O5: the fields of an encoded request read back. -/
theorem duRequestWord : Obligations.DuRequestWord := fun _ =>
  ⟨mreqLevel_encode _ _ _, mreqPause_encode _ _ _, mreqTimeout_encode _ _ _, duRequest_default⟩

/-- The fields of a packed record read back (R78, R182). -/
theorem packWord_fields (sender : BitVec 26) (group onBit : Bool) (recipient : BitVec 4) :
    (packWord sender group onBit recipient).extractLsb' 6 26 = sender ∧
    (packWord sender group onBit recipient).getLsbD 5 = group ∧
    (packWord sender group onBit recipient).getLsbD 4 = onBit ∧
    (packWord sender group onBit recipient).extractLsb' 0 4 = recipient := by
  have bits (k : Nat) : (packWord sender group onBit recipient).getLsbD k =
      (sender ++ BitVec.ofBool group ++ BitVec.ofBool onBit ++ recipient).getLsbD k := rfl
  refine ⟨?_, ?_, ?_, ?_⟩
  · ext k hk
    rw [BitVec.getElem_extractLsb', bits]
    simp only [BitVec.getLsbD_append]
    interval_cases k <;> simp
  · rw [bits]; simp only [BitVec.getLsbD_append]; simp
  · rw [bits]; simp only [BitVec.getLsbD_append]; simp
  · exact BitVec.extractLsb'_append_eq_right

/-- Settles O6: the record word's fields, and the codes of R78, R181 and R201. -/
theorem recordLayout : Obligations.RecordLayout :=
  ⟨packWord_fields, fun _ => rfl, rfl, rfl, rfl, rfl, rfl, rfl, rfl, rfl⟩

/-! ### Commands at the start of a step (R77, R80) -/

/-- A step that finds a command runs it (R140). -/
theorem step_of_command {s : State} {c : CtrlWord} {feed : Feed} (h : s.feed.take = some (.command c, feed)) :
    step s = commandStep c { s with feed := feed } := by
  simp only [step, h]

/-- The codes 4 and up are reserved (R77). -/
theorem decodeCtrl_reserved {c : CtrlWord} (h : 4 ≤ c.toNat) : decodeCtrl c = .error .reservedCommand := by
  have other : ∀ k : CtrlWord, k.toNat < 4 → c ≠ k := fun k hk e => by rw [e] at h; omega
  rw [decodeCtrl, if_neg (other 0 (by decide)), if_neg (other 1 (by decide)), if_neg (other 2 (by decide)),
    if_neg (other 3 (by decide))]

theorem command_codes : ∀ c : CtrlWord, 0 < c.toNat → c.toNat < 4 → c = 0b001 ∨ c = 0b010 ∨ c = 0b011 := by decide

theorem acceptsSetup_iff (s : State) : acceptsSetup s = true ↔ s.st = .idle ∧ s.setupErr = .none := by
  simp [acceptsSetup]

/-- A reserved command is refused (R80). -/
theorem commandStep_reserved {c : CtrlWord} (s : State) (h : 4 ≤ c.toNat) :
    commandStep c s = .refused (.reservedCommand c) := by
  simp only [commandStep, decodeCtrl_reserved h]

/-- A setup command is refused where R77 does not accept it (R80). -/
theorem commandStep_notAccepted {c : CtrlWord} {s : State} (h0 : 0 < c.toNat) (h4 : c.toNat < 4)
    (h : acceptsSetup s ≠ true) : commandStep c s = .refused (.commandNotAccepted c) := by
  obtain rfl | rfl | rfl := command_codes c h0 h4 <;> exact if_neg h

/-- A setup command that is accepted takes no time (R142 to R144). -/
theorem commandStep_accepted {c : CtrlWord} {s : State} (h0 : 0 < c.toNat) (h4 : c.toNat < 4)
    (h : acceptsSetup s = true) : ∃ t, commandStep c s = .next t ∧ t.feed = s.feed ∧ t.now = s.now := by
  obtain rfl | rfl | rfl := command_codes c h0 h4 <;> exact ⟨_, if_pos h, rfl, rfl⟩

/-- Outside IDLE every command is refused by its code (R80). -/
theorem commandStep_refusalByCode {c : CtrlWord} {s : State} (hc : c ≠ 0) (h : acceptsSetup s ≠ true) :
    commandStep c s = .refused (refusalByCode c) := by
  have pos : 0 < c.toNat := Nat.pos_of_ne_zero fun e => hc (BitVec.eq_of_toNat_eq e)
  unfold refusalByCode
  split
  next reserved => exact commandStep_reserved s reserved
  next setup => exact commandStep_notAccepted pos (Nat.lt_of_not_le setup) h

/-- NOP is no command at pin level (R77). -/
theorem command_ne_zero_of_takePin {c : CtrlWord} {rest : List PinItem} : ∀ {items : List PinItem},
    takePin items = some (.command c, rest) → c ≠ 0
  | .reset :: _, h => by cases h
  | .ctrl k :: items, h => by
    by_cases hk : k = 0
    · rw [takePin, if_pos hk] at h
      exact command_ne_zero_of_takePin h
    · rw [takePin, if_neg hk] at h
      split at h <;> cases h
      exact hk
  | .hold _ n :: items, h => by
    rw [takePin] at h
    split at h
    · exact command_ne_zero_of_takePin h
    · cases h

/-- NOP is no command at stream level (R77). -/
theorem command_ne_zero_of_takeStream {c : CtrlWord} {items rest : List StreamItem}
    (h : takeStream items = some (.command c, rest)) : c ≠ 0 := by
  unfold takeStream at h
  split at h
  · cases h
  · cases h
  · split at h <;> cases h
    assumption
  · cases h

/-- NOP is no command (R77). -/
theorem command_ne_zero {feed feed' : Feed} {c : CtrlWord} (h : feed.take = some (.command c, feed')) : c ≠ 0 := by
  cases feed with
  | stream items =>
    obtain ⟨⟨e, rest⟩, taken, eq⟩ := Option.map_eq_some_iff.mp h
    cases eq
    exact command_ne_zero_of_takeStream taken
  | pin items tail =>
    obtain ⟨⟨e, rest⟩, taken, eq⟩ := Option.map_eq_some_iff.mp h
    cases eq
    exact command_ne_zero_of_takePin taken

/-- Settles O20, by the command's code. -/
theorem commandsAreAcceptedOrRefused : Obligations.CommandsAreAcceptedOrRefused := by
  refine ⟨fun s c feed taken => ?_, fun _ _ _ => command_ne_zero⟩
  rw [step_of_command taken]
  refine ⟨commandStep_reserved _, fun h0 h4 => ⟨fun ok => ?_, fun bad => ?_⟩⟩
  · exact commandStep_accepted h0 h4 ((acceptsSetup_iff _).mpr ok)
  · refine commandStep_notAccepted h0 h4 fun accepted => ?_
    obtain ⟨idle, fine⟩ := (acceptsSetup_iff _).mp accepted
    exact bad.elim (· idle) (· fine)

/-! ### Commands inside a measurement (R77, R80) -/

/-- A reset input found at the current tick stands in the script with no ticks before it. -/
theorem reset_of_pinReset {rest : List PinItem} : ∀ {items : List PinItem}, pinReset items = some rest →
    ∃ same, items = same ++ .reset :: rest ∧ holdTicks same = 0
  | .reset :: _, h => by cases h; exact ⟨[], rfl, rfl⟩
  | .ctrl c :: items, h => by
    obtain ⟨same, rfl, ticks⟩ := reset_of_pinReset (items := items) h
    exact ⟨.ctrl c :: same, rfl, ticks⟩
  | .hold l n :: items, h => by
    rw [pinReset] at h
    split at h
    next hn =>
      obtain ⟨same, rfl, ticks⟩ := reset_of_pinReset h
      exact ⟨.hold l n :: same, rfl, by rw [holdTicks, hn, ticks]⟩
    · cases h

/-- With no reset input at the current tick none is found. -/
theorem pinReset_of_noResetNow {items : List PinItem} (h : NoResetNow items) : pinReset items = none := by
  cases hr : pinReset items with
  | none => rfl
  | some rest =>
    obtain ⟨same, eq, ticks⟩ := reset_of_pinReset hr
    have := h same rest eq
    omega

/-- The host input a step finds behind a waveform: whatever follows, if the waveform has no ticks, and else none. -/
theorem takePin_append (items : List PinItem) : ∀ {before : List PinItem}, eventFree before = true →
    takePin (before ++ items) = if holdTicks before = 0 then takePin items else none
  | [], _ => rfl
  | .hold l n :: before, h => by
    have ih := takePin_append items (eventFree_cons.mp h).2
    by_cases hn : n = 0 <;> simp [takePin, holdTicks, hn, ih]
  | .reset :: _, h => by simp [eventFree_cons, PinItem.isEvent] at h
  | .ctrl c :: before, h => by
    obtain ⟨hc, free⟩ := eventFree_cons.mp h
    have nop : c = 0 := by simpa [PinItem.isEvent] using hc
    rw [List.cons_append, takePin, if_pos nop, takePin_append items free]
    rfl

/-- After the ticks of the pause the measurement is still in progress, with the pause behind it. -/
theorem stillMeasuring_after_pause {lvl tail : Level} {k timeout : Nat} {before left : List PinItem}
    (h : StillMeasuring lvl k timeout before tail) (r : Remains tail before left k) :
    StillMeasuring lvl 0 timeout left tail := by
  obtain ⟨-, deadline, running⟩ := h
  have ticks := r.ticks
  refine ⟨r.free, by omega, fun t1 t2 _ h12 h2 => ?_⟩
  rw [r.level, r.level]
  exact running (k + t1) (k + t2) (by omega) (by omega) (by omega)

/-- A measurement meets the host input `e`, with `rest` behind it, `n` ticks after the state `s`: it ends at a command
or, with the configuration of `s`, at the reset input (R206, R240). -/
def MuEnd.MeetsInput (e : PinItem) (rest : List PinItem) (tail : Level) (s : State) (n : Nat) (r : MuEnd) : Prop :=
  ∃ u m goOn, r = onWalk tail u (.stoppedBy m rest e) goOn ∧ u.cfg = s.cfg ∧
    u.now + BitVec.ofNat 64 m = s.now + BitVec.ofNat 64 n

/-- The input's ticks counted from an earlier state. -/
theorem MuEnd.MeetsInput.pass {e : PinItem} {rest : List PinItem} {tail : Level} {s u : State} {k n : Nat} {r : MuEnd}
    (h : r.MeetsInput e rest tail u n) (cfg : u.cfg = s.cfg) (now : u.now = s.now + BitVec.ofNat 64 k) :
    r.MeetsInput e rest tail s (k + n) := by
  obtain ⟨v, m, goOn, hr, hcfg, hnow⟩ := h
  exact ⟨v, m, goOn, hr, hcfg.trans cfg, by rw [hnow, now, BitVec.ofNat_add, BitVec.add_assoc]⟩

section
variable {e : PinItem} {rest before : List PinItem} {tail : Level} {s : State}

/-- The second phase meets a host input that comes before its deadline and its edge (R100). -/
theorem muPhase2_meetsInput (he : e.isEvent = true) {a : Nat} (free : eventFree before = true)
    (deadline : holdTicks before ≤ s.muTimeout.toNat - a)
    (running : ∀ x, x < holdTicks before → levelAt tail before x = s.muTarget) :
    (muPhase2 tail a (before ++ e :: rest) s).MeetsInput e rest tail s (holdTicks before) := by
  rcases walkTo_event he (otherLevel s.muTarget) tail rest before (s.muTimeout.toNat - a) free deadline with
    ⟨-, walk⟩ | ⟨n, _, hn, left, -, -⟩
  · exact ⟨s, _, _, by rw [muPhase2, walk], rfl, rfl⟩
  · have differs : otherLevel s.muTarget ≠ s.muTarget := by cases s.muTarget <;> decide
    exact absurd (left.symm.trans (running n hn)) differs

/-- The measuring phases meet a host input that comes while they are in progress (R100). -/
theorem muPhase1_meetsInput (he : e.isEvent = true)
    (h : StillMeasuring s.muTarget 0 s.muTimeout.toNat before tail) :
    (muPhase1 tail (before ++ e :: rest) s).MeetsInput e rest tail s (holdTicks before) := by
  obtain ⟨free, deadline, running⟩ := h
  rcases walkTo_event he s.muTarget tail rest before s.muTimeout.toNat free (by omega) with
    ⟨-, walk⟩ | ⟨n, left, hn, atLevel, walk, remains⟩
  · exact ⟨s, _, _, by rw [muPhase1, walk], rfl, rfl⟩
  have ticks := remains.ticks
  have level : ∀ x, x < holdTicks left → levelAt tail left x = s.muTarget := fun x hx => by
    rw [remains.level]
    exact not_not.mp fun other => running n (n + x) (by omega) (by omega) (by omega) ⟨atLevel, other⟩
  have deadline' : holdTicks left ≤ s.muTimeout.toNat - n := by omega
  have phase2 : muPhase1 tail (before ++ e :: rest) s = muPhase2 tail n (left ++ e :: rest)
      { s.pass n (.pin (left ++ e :: rest) tail) with muPhase := .phase2 } := by
    rw [muPhase1, walk]; rfl
  rw [phase2, ← ticks]
  refine .pass (muPhase2_meetsInput he remains.free ?_ ?_) rfl rfl
  · exact deadline'
  · exact level

/-- A measurement meets a host input that comes while it or its pause is in progress (R100, R106). -/
theorem muMeasure_meetsInput {lvl : Level} {pz : Bool} {tmo : BitVec 30} (he : e.isEvent = true)
    (feed : s.feed = .pin (before ++ e :: rest) tail)
    (h : StillMeasuring lvl (pauseTicks pz s) tmo.toNat before tail) :
    (muMeasure lvl pz tmo s).MeetsInput e rest tail s (holdTicks before) := by
  cases pz with
  | false =>
    have phase1 : muMeasure lvl false tmo s =
        muPhase1 tail (before ++ e :: rest) { muBegin lvl false tmo s with muT0 := s.now } := by
      simp only [muMeasure, feed]; rfl
    rw [phase1]
    exact muPhase1_meetsInput (s := { muBegin lvl false tmo s with muT0 := s.now }) he h
  | true =>
    have paused : muMeasure lvl true tmo s =
        onWalk tail (muBegin lvl true tmo s) (walkPause (before ++ e :: rest) s.cfg.pauseUs) fun _ items t =>
          muPhase1 tail items { t with muPhase := .phase1, muT0 := t.now } := by
      simp only [muMeasure, feed]; rfl
    have ⟨free, _⟩ := h
    rcases walkPause_event he tail rest before s.cfg.pauseUs free with ⟨-, walk⟩ | ⟨-, left, walk, remains⟩
    · exact ⟨muBegin lvl true tmo s, _, _, by rw [paused, walk], rfl, rfl⟩
    · rw [paused, walk, ← remains.ticks]
      exact (muPhase1_meetsInput he (stillMeasuring_after_pause h remains)).pass rfl rfl

/-- A command met at a tick with no reset input is refused. -/
theorem MuEnd.MeetsInput.refused {c : CtrlWord} {n : Nat} {r : MuEnd} (h : r.MeetsInput (.ctrl c) rest tail s n)
    (quiet : NoResetNow rest) : r = .refused c := by
  obtain ⟨u, m, goOn, rfl, -⟩ := h
  simp only [Walk.stoppedBy, stopAtCommand, pinReset_of_noResetNow quiet]
  rfl

end

/-- A command before the next result is refused at stream level. -/
theorem muMeasure_stream_refused {lvl : Level} {pz : Bool} {tmo : BitVec 30} {s : State} {c : CtrlWord} {n : Nat}
    {rest : List StreamItem} (hc : c ≠ 0)
    (feed : s.feed = .stream (List.replicate n (.ctrl 0) ++ .ctrl c :: rest)) :
    muMeasure lvl pz tmo s = .refused c := by
  simp only [muMeasure, feed, measureStream, drawStream_nops, drawStream, if_neg hc]

/-- The refusal of a command other than NOP is by its code. -/
theorem refusalOf_eq_refusalByCode : ∀ c : CtrlWord, c ≠ 0 → refusalOf c = refusalByCode c := by decide

theorem exec_measure_refused {lvl : Level} {pz : Bool} {tmo : BitVec 30} {s : State} {c : CtrlWord} (hc : c ≠ 0)
    (h : muMeasure lvl pz tmo s = .refused c) : exec (.measure lvl pz tmo) s = .refused (refusalByCode c) := by
  simp only [exec, execMeasure, h, refusalOf_eq_refusalByCode c hc]

/-- A SEEK or FRAME step whose measurement refuses a command refuses it. -/
theorem step_refused {s : State} {c : CtrlWord} (hc : c ≠ 0) (mreq : s.mreq = none) (hs : s.st = .seek ∨ s.st = .frame)
    (taken : s.feed.take = none) (h : muMeasure .low s.pausePending s.cfg.measureTimeoutUs s = .refused c) :
    step s = .refused (refusalByCode c) := by
  have measured : measuredStep s = .refused (refusalByCode c) := by
    simp only [measuredStep, duMeasure_eq, h, refusalOf_eq_refusalByCode c hc]
  rcases hs with hs | hs <;> simp only [step, taken, ownStep, mreq, hs, measured]

/-- A command that a SEEK or FRAME step finds at its start is refused. -/
theorem step_refused_of_command {s : State} {c : CtrlWord} {feed : Feed} (hs : s.st = .seek ∨ s.st = .frame)
    (taken : s.feed.take = some (.command c, feed)) : step s = .refused (refusalByCode c) := by
  rw [step_of_command taken]
  refine commandStep_refusalByCode (command_ne_zero taken) fun accepted => ?_
  obtain ⟨idle, -⟩ := (acceptsSetup_iff _).mp accepted
  rcases hs with hs | hs <;> exact absurd (hs.symm.trans idle) (by decide)

/-- What a step finds in a pin script with a command behind a waveform: the command where the waveform has no ticks,
and else nothing. -/
theorem take_pin_command {before after : List PinItem} {tail : Level} {c : CtrlWord} (hc : c ≠ 0)
    (free : eventFree before = true) (quiet : NoResetNow after) :
    (Feed.pin (before ++ .ctrl c :: after) tail).take = some (.command c, .pin after tail) ∨
      (Feed.pin (before ++ .ctrl c :: after) tail).take = none := by
  have now : takePin (.ctrl c :: after) = some (.command c, after) := by
    rw [takePin, if_neg hc, pinReset_of_noResetNow quiet]
  rw [Feed.take, takePin_append _ free, now]
  split
  · exact .inl rfl
  · exact .inr rfl

/-- What a step finds in a stream script with a command behind NOPs: the command where there are none, and else
nothing. -/
theorem take_stream_command {n : Nat} {rest : List StreamItem} {c : CtrlWord} (hc : c ≠ 0) :
    (Feed.stream (List.replicate n (.ctrl 0) ++ .ctrl c :: rest)).take = some (.command c, .stream rest) ∨
      (Feed.stream (List.replicate n (.ctrl 0) ++ .ctrl c :: rest)).take = none := by
  cases n with
  | zero =>
    have now : takeStream (.ctrl c :: rest) = some (.command c, rest) := if_neg hc
    exact .inl (by rw [List.replicate_zero, List.nil_append, Feed.take, now]; rfl)
  | succ n => exact .inr rfl

/-- Settles O43: the command is met at the step's start, or by the measurement. -/
theorem commandDuringMeasurementIsRefused : Obligations.CommandDuringMeasurementIsRefused := by
  have event {c : CtrlWord} (hc : c ≠ 0) : (PinItem.ctrl c).isEvent = true := by simpa [PinItem.isEvent] using hc
  refine ⟨fun lvl pz tmo s c hc => ⟨fun before after tail feed quiet h => ?_, fun n rest feed => ?_⟩,
    fun s c hc mreq hs => ⟨fun before after tail feed quiet h => ?_, fun n rest feed => ?_⟩⟩
  · exact exec_measure_refused hc ((muMeasure_meetsInput (event hc) feed h).refused quiet)
  · exact exec_measure_refused hc (muMeasure_stream_refused hc feed)
  · have ⟨free, _⟩ := h
    rcases take_pin_command hc free quiet with taken | taken <;> rw [← feed] at taken
    · exact step_refused_of_command hs taken
    · exact step_refused hc mreq hs taken ((muMeasure_meetsInput (event hc) feed h).refused quiet)
  · rcases take_stream_command (n := n) (rest := rest) hc with taken | taken <;> rw [← feed] at taken
    · exact step_refused_of_command hs taken
    · exact step_refused hc mreq hs taken (muMeasure_stream_refused hc feed)

end Sys2Proof.Machine

/-! PROOFS. The measurement unit (`spec/40_measurement.md`). Two lemmas carry the family: `measure_returns` says what
every measurement that returns a result has done to the clock and the MU's own state, at either level and whatever the
script holds; `muMeasure_answers` says that on a waveform alone a measurement returns what the closed form of R102
gives, which R100's loop gives too (`polled_closedForm`), so that the two agree (`ClosedForm.unique`). -/

namespace Sys2Proof.Machine

/-! ### Every measurement that returns a result -/

/-- Registers left alone leave the whole state alone, but for the clock, the MU's own state, the result and the
script. -/
theorem SameRegisters.eq_update {s t : State} (h : SameRegisters s t) : t = { s with
    now := t.now, muPhase := t.muPhase, muT0 := t.muT0, muTarget := t.muTarget, muTimeout := t.muTimeout
    mres := t.mres, feed := t.feed, draws := t.draws } := by
  cases t
  obtain ⟨rfl, rfl, rfl, rfl, rfl, rfl, rfl, rfl, rfl, rfl, rfl, rfl, rfl, rfl, rfl⟩ := h
  rfl

/-- A walk after which a measurement returns a result: one that found its level, and went on, or one that met the
deadline (R100). -/
theorem onWalk_done {tail : Level} {s t : State} {w : Walk} {goOn : Nat → List PinItem → State → MuEnd}
    (h : onWalk tail s w goOn = .done t) :
    (∃ n items, w = .reached n items ∧ goOn n items (s.pass n (.pin items tail)) = .done t) ∨
    (∃ n items, w = .expired n items ∧ t = muReturn timeoutWord (s.pass n (.pin items tail))) := by
  cases w with
  | reached n items => exact .inl ⟨n, items, rfl, h⟩
  | expired n items => cases h; exact .inr ⟨n, items, rfl, rfl⟩
  | reset n items => cases h
  | command n c items => cases h

section
variable {tail : Level} {items rest : List PinItem} {s : State} {lvl : Level} {tmo : BitVec 30}

/-- Phase 2 with the pin off the target level in time: the duration spans both phases (R104). -/
theorem muPhase2_reached {a b : Nat}
    (walk : walkTo (otherLevel s.muTarget) tail items (s.muTimeout.toNat - a) = .reached b rest) :
    muPhase2 tail a items s = .done (muReturn (durationWord (a + b)) (s.pass b (.pin rest tail))) := by
  rw [muPhase2, walk]; rfl

theorem muPhase2_expired {a n : Nat}
    (walk : walkTo (otherLevel s.muTarget) tail items (s.muTimeout.toNat - a) = .expired n rest) :
    muPhase2 tail a items s = .done (muReturn timeoutWord (s.pass n (.pin rest tail))) := by
  rw [muPhase2, walk]; rfl

/-- Phase 1 with the pin at the target level in time goes on in phase 2. -/
theorem muPhase1_reached {a : Nat} (walk : walkTo s.muTarget tail items s.muTimeout.toNat = .reached a rest) :
    muPhase1 tail items s = muPhase2 tail a rest { s.pass a (.pin rest tail) with muPhase := .phase2 } := by
  rw [muPhase1, walk]; rfl

theorem muPhase1_expired {n : Nat} (walk : walkTo s.muTarget tail items s.muTimeout.toNat = .expired n rest) :
    muPhase1 tail items s = .done (muReturn timeoutWord (s.pass n (.pin rest tail))) := by
  rw [muPhase1, walk]; rfl

/-- MEASURE without the pause begins with phase 1. -/
theorem muMeasure_noPause (feed : s.feed = .pin items tail) :
    muMeasure lvl false tmo s = muPhase1 tail items { muBegin lvl false tmo s with muT0 := s.now } := by
  simp only [muMeasure, feed]; rfl

/-- MEASURE with the pause takes its start timestamp at the end of the pause (R106). -/
theorem muMeasure_pause (feed : s.feed = .pin items tail) :
    muMeasure lvl true tmo s =
      onWalk tail (muBegin lvl true tmo s) (walkPause items s.cfg.pauseUs) fun _ items t =>
        muPhase1 tail items { t with muPhase := .phase1, muT0 := t.now } := by
  simp only [muMeasure, feed]; rfl

/-- At stream level MEASURE takes the next result of the script (R101). -/
theorem muMeasure_stream_result {pz : Bool} {r : MresWord} {rest : List StreamItem}
    (feed : s.feed = .stream (.result r :: rest)) :
    ∃ t, muMeasure lvl pz tmo s = .done t ∧ t.mres = r ∧ t.feed = .stream rest ∧ t.draws = s.draws := by
  simp only [muMeasure, feed, measureStream, drawStream]
  exact ⟨_, rfl, rfl, rfl, rfl⟩

/-- Where the script is empty MEASURE takes the free draw (log 2). -/
theorem muMeasure_stream_free {pz : Bool} (feed : s.feed = .stream []) :
    ∃ t, muMeasure lvl pz tmo s = .done t ∧ t.mres = Config.freeResult s.draws ∧ t.feed = .stream [] ∧
      t.draws = s.draws + 1 := by
  simp only [muMeasure, feed, measureStream, drawStream]
  exact ⟨_, rfl, rfl, rfl, rfl⟩

end

/-- What the MU, with a request taken, has done where it returns a result: the request stands, and the clock is the
result's ticks past the start timestamp `t0` (R111, R251). -/
structure MuReturns (t0 : Clock) (s t : State) : Prop where
  target : t.muTarget = s.muTarget
  timeout : t.muTimeout = s.muTimeout
  start : t.muT0 = t0
  now : t.now = t0 + BitVec.ofNat 64 (resultTicks s.muTimeout t.mres)

@[simp] theorem resultTicks_timeoutWord (timeout : BitVec 30) : resultTicks timeout timeoutWord = timeout.toNat := rfl

/-- A duration within the timeout has the 31 bits of `DUR` (R70). -/
theorem mresDuration_of_le {timeout : BitVec 30} {d : Nat} (h : d ≤ timeout.toNat) :
    mresDuration (durationWord d) = d :=
  mresDuration_durationWord (by have := timeout.isLt; omega)

/-- A duration within the timeout took its own ticks (R111). -/
theorem resultTicks_durationWord {timeout : BitVec 30} {d : Nat} (h : d ≤ timeout.toNat) :
    resultTicks timeout (durationWord d) = d := by
  simp [resultTicks, mresDuration_of_le h]

/-- Two stretches of time, one after the other. -/
theorem clock_add (c : Clock) (a b : Nat) :
    c + BitVec.ofNat 64 a + BitVec.ofNat 64 b = c + BitVec.ofNat 64 (a + b) := by
  rw [BitVec.ofNat_add, add_assoc]

/-- Phase 2 returns under the deadline both phases share (R103, R104). -/
theorem muPhase2_returns {tail : Level} {a : Nat} {items : List PinItem} {s t : State}
    (h : muPhase2 tail a items s = .done t) (now : s.now = s.muT0 + BitVec.ofNat 64 a)
    (inTime : a ≤ s.muTimeout.toNat) : MuReturns s.muT0 s t := by
  obtain ⟨reached, expired⟩ := walkTo_ticks (otherLevel s.muTarget) tail items (s.muTimeout.toNat - a)
  rcases onWalk_done h with ⟨b, rest, walk, done⟩ | ⟨b, rest, walk, rfl⟩
  · cases done
    have both : a + b ≤ s.muTimeout.toNat := by have := reached b rest walk; omega
    exact ⟨rfl, rfl, rfl, by simp [resultTicks_durationWord both, now, clock_add]⟩
  · have both : a + b = s.muTimeout.toNat := by have := expired b rest walk; omega
    exact ⟨rfl, rfl, rfl, by simp [now, clock_add, both]⟩

/-- The measuring phases return, counted from the start timestamp (R100). -/
theorem muPhase1_returns {tail : Level} {items : List PinItem} {s t : State}
    (h : muPhase1 tail items s = .done t) (now : s.now = s.muT0) : MuReturns s.muT0 s t := by
  obtain ⟨reached, expired⟩ := walkTo_ticks s.muTarget tail items s.muTimeout.toNat
  rcases onWalk_done h with ⟨a, rest, walk, done⟩ | ⟨n, rest, walk, rfl⟩
  · obtain ⟨target, timeout, start, now'⟩ := muPhase2_returns done (by simp [now]) (reached a rest walk)
    exact ⟨target, timeout, start, now'⟩
  · exact ⟨rfl, rfl, rfl, by simp [now, expired n rest walk]⟩

/-- A measurement that returns a result has its start timestamp after the pause, where one is asked for, and took the
result's ticks from there on, at either level (R106, R111, R251). -/
theorem measure_returns {lvl : Level} {pz : Bool} {tmo : BitVec 30} {s t : State}
    (h : muMeasure lvl pz tmo s = .done t) :
    MuReturns (s.now + BitVec.ofNat 64 (pauseTicks pz s)) (muBegin lvl pz tmo s) t := by
  cases feed : s.feed with
  | stream items =>
    simp only [muMeasure, feed, measureStream] at h
    split at h <;> cases h <;> cases pz <;> exact ⟨rfl, rfl, rfl, rfl⟩
  | pin items tail =>
    cases pz with
    | false =>
      rw [muMeasure_noPause feed] at h
      obtain ⟨target, timeout, start, now⟩ := muPhase1_returns h rfl
      have noTicks : s.now + BitVec.ofNat 64 (pauseTicks false s) = s.now := by simp [pauseTicks]
      rw [noTicks]
      exact ⟨target, timeout, start, now⟩
    | true =>
      rw [muMeasure_pause feed] at h
      rcases onWalk_done h with ⟨n, rest, walk, done⟩ | ⟨n, rest, walk, -⟩
      · obtain ⟨target, timeout, start, now⟩ := muPhase1_returns done rfl
        obtain rfl := (walkPause_ticks _ _).1 n rest walk
        exact ⟨target, timeout, start, now⟩
      · exact absurd walk ((walkPause_ticks _ _).2 n rest)

/-- A measurement that returns a result changes nothing else (R105). -/
theorem measureFrame_of_done {lvl : Level} {pz : Bool} {tmo : BitVec 30} {s t : State}
    (h : muMeasure lvl pz tmo s = .done t) : MeasureFrame lvl tmo s t := by
  have update := (measure_same (.inl h)).eq_update
  have ret := measure_returns h
  rw [measure_idle h, ret.target, ret.timeout] at update
  exact update

/-- MEASURE answers the state in which the MU returned its result. -/
theorem exec_measure_of_done {lvl : Level} {pz : Bool} {tmo : BitVec 30} {s t : State}
    (h : muMeasure lvl pz tmo s = .done t) : exec (.measure lvl pz tmo) s = .next t := by
  simp only [exec, execMeasure, h]

/-- Settles O12: a measurement's frame, whatever the script holds. -/
theorem measureWritesNoRegister : Obligations.MeasureWritesNoRegister :=
  fun _ _ _ _ _ h => ⟨exec_measure_of_done h, measureFrame_of_done h⟩

/-- Settles O13: the clock's difference is the result's ticks. -/
theorem resultIsElapsedTime : Obligations.ResultIsElapsedTime := by
  intro lvl pz tmo s t h
  have ret := measure_returns h
  refine ⟨ret.start, ?_⟩
  rw [ret.now, ret.start, add_sub_cancel_left]
  rfl

/-! ### The stream level -/

/-- The ticks of a result, by the value of its word (R70, R251). -/
theorem resultTicks_eq (timeout : BitVec 30) (r : MresWord) :
    resultTicks timeout r = if 2 ^ 31 ≤ r.toNat then timeout.toNat else r.toNat := by
  by_cases h : 2 ^ 31 ≤ r.toNat
  · rw [if_pos h, resultTicks, mresTimeout_eq, if_pos (decide_eq_true h)]
  · have dur : mresDuration r = r.toNat := by
      simp only [mresDuration, BitVec.extractLsb'_toNat]
      omega
    rw [if_neg h, resultTicks, mresTimeout_eq, if_neg (by simpa using h), dur]

/-- Settles O11: the draw is the script's next result, or the free one. -/
theorem measureDrawsFromTheStream : Obligations.MeasureDrawsFromTheStream := by
  refine ⟨fun lvl pz tmo s r rest feed => ?_, fun lvl pz tmo s feed => ?_⟩
  · obtain ⟨t, done, mres, left, draws⟩ := muMeasure_stream_result (lvl := lvl) (pz := pz) (tmo := tmo) feed
    have ret := measure_returns done
    refine ⟨t, exec_measure_of_done done, mres, left, draws, ret.start, ?_, measureFrame_of_done done⟩
    rw [ret.now, ret.start, resultTicks_eq, mres, muBegin_muTimeout]
  · obtain ⟨t, done, mres, left, draws⟩ := muMeasure_stream_free (lvl := lvl) (pz := pz) (tmo := tmo) feed
    exact ⟨t, exec_measure_of_done done, mres, left, draws, measureFrame_of_done done⟩

/-! ### What a step costs (R107, R251) -/

/-- Only waiting and measuring take time. -/
theorem exec_now {i : Instr} {s t : State} (h : exec i s = .next t) (idleWait : ∀ f, i ≠ .idleWait f)
    (halted : ∀ f, i ≠ .halted f) (measure : ∀ l p m, i ≠ .measure l p m) : t.now = s.now := by
  cases i with
  | idleWait f => exact absurd rfl (idleWait f)
  | halted f => exact absurd rfl (halted f)
  | measure l p m => exact absurd rfl (measure l p m)
  | start | failPin | failInit =>
    simp only [exec, execStart, execFailPin, execFailInit] at h
    split at h <;> cases h
    rfl
  | _ => cases h; rfl

/-- The operation of a SEEK or FRAME step takes no time. -/
theorem exec_selectOp_now {st : St} {s t : State} (hst : st = .seek ∨ st = .frame)
    (h : exec (selectOp st.code (selFields s)) s = .next t) : t.now = s.now := by
  rcases hst with rfl | rfl
  · obtain ⟨-, rfl⟩ | ⟨-, rfl⟩ := seek_cases h <;> rfl
  · cases frame_outcome rfl h with
    | abort kind cause _ h => rw [h, frameAbort_now]
    | symbol _ _ h => rw [h]
    | complete _ h => cases h; rfl

/-- Settles O32: a measured step takes the time of its measurement. -/
theorem stepTiming : Obligations.StepTiming := by
  refine ⟨?_, fun i s t h idleWait halted measure => exec_now h idleWait halted measure⟩
  rintro s u t ⟨feed, mreq, measured⟩ hst h
  rw [step_of_duMeasure feed mreq hst measured] at h
  rw [duMeasure_eq] at measured
  have operation : t.now = u.now := exec_selectOp_now (s := stepDefaults u) hst h
  rw [operation, (measure_returns measured).now, clock_add]
  rfl

/-! ### The closed form (R102) -/

/-- On the waveform `L`, `t1` is the first tick at the level, and `t2` the first from `t1` on at the other (R102). -/
def Edges (L : Nat → Level) (lvl : Level) (t1 t2 : Nat) : Prop :=
  t1 ≤ t2 ∧ L t1 = lvl ∧ (∀ x, x < t1 → L x ≠ lvl) ∧ L t2 ≠ lvl ∧ ∀ x, t1 ≤ x → x < t2 → L x = lvl

/-- The outcome R102 gives on the waveform `L`. -/
inductive ClosedForm (L : Nat → Level) (lvl : Level) (timeout : Nat) : Polled → Prop where
  | duration {t1 t2 : Nat} (edges : Edges L lvl t1 t2) (inTime : t2 ≤ timeout) :
      ClosedForm L lvl timeout { duration := some t2, tick := t2 }
  | timeout (late : ∀ t1 t2, Edges L lvl t1 t2 → timeout < t2) :
      ClosedForm L lvl timeout { duration := none, tick := timeout }

section
variable {L : Nat → Level} {lvl : Level} {timeout : Nat}

/-- The end of the level's first stretch is one tick. -/
theorem Edges.unique {t1 t2 u1 u2 : Nat} (h : Edges L lvl t1 t2) (k : Edges L lvl u1 u2) : t2 = u2 := by
  obtain ⟨ht, htAt, htBefore, htLeft, htStays⟩ := h
  obtain ⟨hu, huAt, huBefore, huLeft, huStays⟩ := k
  have first : t1 = u1 := le_antisymm
    (not_lt.mp fun lt => htBefore u1 lt huAt) (not_lt.mp fun lt => huBefore t1 lt htAt)
  subst first
  exact le_antisymm (not_lt.mp fun lt => huLeft (htStays u2 hu lt)) (not_lt.mp fun lt => htLeft (huStays t2 ht lt))

/-- R102 gives one outcome. -/
theorem ClosedForm.unique {p q : Polled} (hp : ClosedForm L lvl timeout p) (hq : ClosedForm L lvl timeout q) :
    p = q := by
  cases hp with
  | duration e he =>
    cases hq with
    | duration f hf => rw [e.unique f]
    | timeout late => exact absurd (late _ _ e) (not_lt.mpr he)
  | timeout late =>
    cases hq with
    | duration f hf => exact absurd (late _ _ f) (not_lt.mpr hf)
    | timeout => rfl

/-- A pin that is not at the level up to the deadline gives Timeout. -/
theorem ClosedForm.of_never (never : ∀ x, x ≤ timeout → L x ≠ lvl) :
    ClosedForm L lvl timeout { duration := none, tick := timeout } := by
  refine .timeout fun t1 t2 ⟨h12, hat, _⟩ => not_le.mp fun inTime => ?_
  exact never t1 (h12.trans inTime) hat

/-- A pin that reaches the level and stays there up to the deadline gives Timeout. -/
theorem ClosedForm.of_stays {t1 : Nat} (before : ∀ x, x < t1 → L x ≠ lvl)
    (stays : ∀ x, t1 ≤ x → x ≤ timeout → L x = lvl) :
    ClosedForm L lvl timeout { duration := none, tick := timeout } := by
  refine .timeout fun u1 u2 ⟨h12, hat, _, hleft, _⟩ => not_le.mp fun inTime => ?_
  have from1 : t1 ≤ u1 := not_lt.mp fun lt => before u1 lt hat
  exact hleft (stays u2 (from1.trans h12) inTime)

/-- Phase 2 of R100's loop, at tick `t`, with the pin at the level since `t1`. -/
theorem pollPhase2_closedForm {t1 : Nat} (before : ∀ x, x < t1 → L x ≠ lvl) (hat : L t1 = lvl) :
    ∀ (fuel t : Nat), t1 ≤ t → t ≤ timeout → timeout - t < fuel → (∀ x, t1 ≤ x → x < t → L x = lvl) →
      ClosedForm L lvl timeout (pollPhase2 L lvl timeout fuel t)
  | 0, t, _, _, hf, _ => absurd hf (Nat.not_lt_zero _)
  | fuel + 1, t, h1, ht, hf, stays => by
    rw [pollPhase2]
    by_cases left : L t ≠ lvl
    · rw [if_pos left]
      exact .duration ⟨h1, hat, before, left, stays⟩ ht
    rw [if_neg left]
    have stays' : ∀ x, t1 ≤ x → x < t + 1 → L x = lvl := fun x hx hxt => by
      rcases Nat.lt_succ_iff_lt_or_eq.mp hxt with lt | rfl
      · exact stays x hx lt
      · exact not_not.mp left
    by_cases deadline : timeout ≤ t
    · rw [if_pos deadline, le_antisymm ht deadline]
      exact .of_stays before fun x hx hxt => stays' x hx (by omega)
    · rw [if_neg deadline]
      exact pollPhase2_closedForm before hat fuel (t + 1) (by omega) (by omega) (by omega) stays'

/-- Phase 1 of R100's loop, at tick `t`, with the pin not yet at the level. -/
theorem pollPhase1_closedForm : ∀ (fuel t : Nat), t ≤ timeout → timeout - t < fuel → (∀ x, x < t → L x ≠ lvl) →
    ClosedForm L lvl timeout (pollPhase1 L lvl timeout fuel t)
  | 0, t, _, hf, _ => absurd hf (Nat.not_lt_zero _)
  | fuel + 1, t, ht, hf, before => by
    rw [pollPhase1]
    by_cases hat : L t = lvl
    · rw [if_pos hat]
      exact pollPhase2_closedForm before hat _ t le_rfl ht (by omega) fun x hx hxt => by omega
    rw [if_neg hat]
    have before' : ∀ x, x < t + 1 → L x ≠ lvl := fun x hxt => by
      rcases Nat.lt_succ_iff_lt_or_eq.mp hxt with lt | rfl
      · exact before x lt
      · exact hat
    by_cases deadline : timeout ≤ t
    · rw [if_pos deadline, le_antisymm ht deadline]
      exact .of_never fun x hx => before' x (by omega)
    · rw [if_neg deadline]
      exact pollPhase1_closedForm fuel (t + 1) (by omega) (by omega) before'

/-- R100's loop gives the outcome of R102. -/
theorem polled_closedForm (L : Nat → Level) (lvl : Level) (timeout : Nat) :
    ClosedForm L lvl timeout (polled L lvl timeout) :=
  pollPhase1_closedForm (timeout + 1) 0 (Nat.zero_le _) (by omega) fun x hx => absurd hx (Nat.not_lt_zero x)

end

/-- The ticks of an outcome's word are the tick it is returned at (R111). -/
theorem ClosedForm.resultTicks_word {L : Nat → Level} {lvl : Level} {timeout : BitVec 30} {p : Polled}
    (h : ClosedForm L lvl timeout.toNat p) : resultTicks timeout p.word = p.tick := by
  cases h with
  | duration _ inTime => exact resultTicks_durationWord inTime
  | timeout => exact resultTicks_timeoutWord timeout

/-! ### The measurement unit on a waveform alone -/

/-- The MU, measuring from `s` on, returns in `t` the outcome `p` that R102 gives on the waveform `L`, and the pin
script goes on from the tick of the return. -/
structure Answers (L : Nat → Level) (tail : Level) (s t : State) (p : Polled) : Prop where
  closedForm : ClosedForm L s.muTarget s.muTimeout.toNat p
  mres : t.mres = p.word
  draws : t.draws = s.draws
  feed : ∃ rest, t.feed = .pin rest tail ∧ eventFree rest = true ∧ ∀ x, levelAt tail rest x = L (p.tick + x)

/-- The pin is at one level or at the other (R16). -/
theorem eq_otherLevel_iff {l m : Level} : l = otherLevel m ↔ l ≠ m := by
  cases l <;> cases m <;> decide

section
variable {L : Nat → Level} {tail : Level} {items : List PinItem} {s : State}

/-- Phase 2, from the first tick `a` at the level on, answers on the waveform. -/
theorem muPhase2_answers {a : Nat} (free : eventFree items = true) (level : ∀ x, levelAt tail items x = L (a + x))
    (inTime : a ≤ s.muTimeout.toNat) (hat : L a = s.muTarget) (before : ∀ x, x < a → L x ≠ s.muTarget) :
    ∃ t p, muPhase2 tail a items s = .done t ∧ Answers L tail s t p := by
  rcases walkTo_spec (otherLevel s.muTarget) tail items (s.muTimeout.toNat - a) free with
    ⟨b, rest, walk, hb, restFree, stays, left, restLevel⟩ | ⟨rest, walk, restFree, stays, restLevel⟩
  · simp only [level, ne_eq, eq_otherLevel_iff, not_not] at stays left restLevel
    refine ⟨_, { duration := some (a + b), tick := a + b }, muPhase2_reached walk, ?_, rfl, rfl, rest, rfl,
      restFree, fun x => by rw [restLevel, Nat.add_assoc]⟩
    refine .duration ⟨Nat.le_add_right a b, hat, before, left, fun x hx hxb => ?_⟩ (by omega)
    simpa [Nat.add_sub_cancel' hx] using stays (x - a) (by omega)
  · simp only [level, ne_eq, eq_otherLevel_iff, not_not] at stays restLevel
    refine ⟨_, { duration := none, tick := s.muTimeout.toNat }, muPhase2_expired walk, ?_, rfl, rfl, rest, rfl,
      restFree, fun x => by rw [restLevel, ← Nat.add_assoc, Nat.add_sub_cancel' inTime]⟩
    refine .of_stays before fun x hx hxt => ?_
    simpa [Nat.add_sub_cancel' hx] using stays (x - a) (by omega)

/-- The measuring phases answer on the waveform. -/
theorem muPhase1_answers (free : eventFree items = true) (level : ∀ x, levelAt tail items x = L x) :
    ∃ t p, muPhase1 tail items s = .done t ∧ Answers L tail s t p := by
  rcases walkTo_spec s.muTarget tail items s.muTimeout.toNat free with
    ⟨a, rest, walk, ha, restFree, before, hat, restLevel⟩ | ⟨rest, walk, restFree, never, restLevel⟩
  · simp only [level] at before hat restLevel
    obtain ⟨t, p, done, closedForm, mres, draws, feed⟩ := muPhase2_answers
      (s := { s.pass a (.pin rest tail) with muPhase := .phase2 }) restFree restLevel ha hat before
    exact ⟨t, p, (muPhase1_reached walk).trans done, closedForm, mres, draws, feed⟩
  · simp only [level] at never restLevel
    exact ⟨_, { duration := none, tick := s.muTimeout.toNat }, muPhase1_expired walk, .of_never never, rfl, rfl,
      rest, rfl, restFree, restLevel⟩

/-- MEASURE answers on the waveform from the end of the pause on (R100, R106). -/
theorem muMeasure_answers {lvl : Level} {pz : Bool} {tmo : BitVec 30} (feed : s.feed = .pin items tail)
    (free : eventFree items = true) :
    ∃ t p, muMeasure lvl pz tmo s = .done t ∧
      Answers (fun x => levelAt tail items (pauseTicks pz s + x)) tail (muBegin lvl pz tmo s) t p := by
  cases pz with
  | false =>
    rw [muMeasure_noPause feed]
    have level (x : Nat) : levelAt tail items x = levelAt tail items (pauseTicks false s + x) := by
      rw [show pauseTicks false s = 0 from rfl, Nat.zero_add]
    obtain ⟨t, p, done, closedForm, mres, draws, feed⟩ :=
      muPhase1_answers (s := { muBegin lvl false tmo s with muT0 := s.now }) free level
    exact ⟨t, p, done, closedForm, mres, draws, feed⟩
  | true =>
    obtain ⟨left, walk, leftFree, leftLevel⟩ := walkPause_spec tail items s.cfg.pauseUs free
    rw [muMeasure_pause feed, walk]
    obtain ⟨t, p, done, closedForm, mres, draws, feed⟩ := muPhase1_answers
      (s := { (muBegin lvl true tmo s).pass s.cfg.pauseUs (.pin left tail) with
        muPhase := .phase1, muT0 := s.now + BitVec.ofNat 64 s.cfg.pauseUs }) leftFree leftLevel
    exact ⟨t, p, done, closedForm, mres, draws, feed⟩

end

/-- On a waveform a measurement returns at the tick R102 gives (R111). -/
theorem Answers.now {L : Nat → Level} {tail lvl : Level} {pz : Bool} {tmo : BitVec 30} {s t : State} {p : Polled}
    (h : Answers L tail (muBegin lvl pz tmo s) t p) (done : muMeasure lvl pz tmo s = .done t) :
    t.now = s.now + BitVec.ofNat 64 (pauseTicks pz s + p.tick) := by
  rw [(measure_returns done).now, h.mres, h.closedForm.resultTicks_word, clock_add]

/-- Settles O8: the MU and R100's loop both give the outcome of R102. -/
theorem measureIsThePollingLoop : Obligations.MeasureIsThePollingLoop := by
  intro lvl pz tmo s items tail feed free k p
  obtain ⟨t, q, done, ans⟩ := muMeasure_answers (lvl := lvl) (pz := pz) (tmo := tmo) feed free
  obtain rfl : q = p := ans.closedForm.unique (polled_closedForm _ _ _)
  obtain ⟨rest, left, restFree, restLevel⟩ := ans.feed
  refine ⟨t, exec_measure_of_done done, ans.mres, (measure_returns done).start, ans.now done,
    ⟨rest, left, restFree, fun x => ?_⟩, ans.draws, measureFrame_of_done done⟩
  rw [restLevel, Nat.add_assoc]

/-- Settles O9: the MU's outcome, by the cases of R102. -/
theorem measureClosedForm : Obligations.MeasureClosedForm := by
  intro lvl pz tmo s items tail feed free k L First
  obtain ⟨t, p, done, ans⟩ := muMeasure_answers (lvl := lvl) (pz := pz) (tmo := tmo) feed free
  have now := ans.now done
  obtain ⟨closedForm, mres, -, -⟩ := ans
  refine ⟨t, exec_measure_of_done done, ?_⟩
  rw [mres]
  cases closedForm with
  | @duration t1 t2 edges inTime =>
    have dur := mresDuration_of_le inTime
    refine ⟨fun u1 u2 first _ => ?_, fun none => absurd ⟨_, _, edges, inTime⟩ none, fun _ => ?_⟩
    · rw [Edges.unique first edges]
      exact ⟨mresTimeout_durationWord _, dur, now⟩
    · obtain ⟨h12, hat, -, hleft, -⟩ := edges
      have differ : t1 ≠ t2 := fun e => hleft (e ▸ hat)
      simp only [Polled.word, dur]
      exact ⟨by omega, inTime⟩
  | timeout late =>
    refine ⟨fun u1 u2 first inTime => absurd (late u1 u2 first) (not_lt.mpr inTime), fun _ => ⟨rfl, now⟩, fun h => ?_⟩
    exact absurd (h.symm.trans mresTimeout_timeoutWord) (by decide)

/-- Settles O10: an edge within the timeout would lie in the level's `b` ticks. -/
theorem sharedDeadline : Obligations.SharedDeadline := by
  intro lvl tmo s items tail a b feed free before stays late
  obtain ⟨t, next, -, timedOut, -⟩ := measureClosedForm lvl false tmo s items tail feed free
  refine ⟨t, next, (timedOut ?_).1⟩
  rintro ⟨t1, t2, ⟨h12, hat, -, hleft, -⟩, inTime⟩
  simp only [pauseTicks, Bool.false_eq_true, if_false, Nat.zero_add] at hat hleft
  have from1 : a ≤ t1 := not_lt.mp fun lt => before t1 lt hat
  exact hleft (stays t2 (by omega) (by omega))

/-- Settles O14: both waveforms have one outcome by R102, from the end of the pause on. -/
theorem pauseIsBlind : Obligations.PauseIsBlind := by
  rintro lvl tmo s s' items items' tail feed rfl free free' same
  obtain ⟨t, p, done, ans⟩ := muMeasure_answers (lvl := lvl) (pz := true) (tmo := tmo) feed free
  obtain ⟨t', p', done', ans'⟩ := muMeasure_answers (s := { s with feed := .pin items' tail }) (lvl := lvl)
    (pz := true) (tmo := tmo) rfl free'
  have wave : (fun x => levelAt tail items (s.cfg.pauseUs + x)) = fun x => levelAt tail items' (s.cfg.pauseUs + x) :=
    funext same
  have closedForm : ClosedForm (fun x => levelAt tail items (s.cfg.pauseUs + x)) lvl tmo.toNat p := ans.closedForm
  rw [wave] at closedForm
  obtain rfl := closedForm.unique ans'.closedForm
  refine ⟨t, t', exec_measure_of_done done, exec_measure_of_done done', ?_⟩
  rw [measureFrame_of_done done', ans'.mres, ans'.now done', (measure_returns done').start, ans'.draws,
    measureFrame_of_done done, ans.mres, ans.now done, (measure_returns done).start, ans.draws]
  rfl

/-- Settles O15: phase 1 walks the HIGH time, phase 2 the LOW time. -/
theorem symbolIsHighPlusLow : Obligations.SymbolIsHighPlusLow := by
  intro s tmo a b c rest tail ha hb hc deadline feed
  have phase1 : walkTo .low tail (.hold .high a :: .hold .low b :: .hold .high c :: rest) tmo.toNat =
      .reached a (.hold .low b :: .hold .high c :: rest) := by
    simp [walkTo, ha.ne', hb.ne', show ¬ tmo.toNat < a by omega]
  have phase2 : walkTo .high tail (.hold .low b :: .hold .high c :: rest) (tmo.toNat - a) =
      .reached b (.hold .high c :: rest) := by
    simp [walkTo, hb.ne', hc.ne', show ¬ tmo.toNat - a < b by omega]
  have done : muMeasure .low false tmo s = .done _ :=
    (muMeasure_noPause feed).trans ((muPhase1_reached phase1).trans (muPhase2_reached phase2))
  exact ⟨_, exec_measure_of_done done, mresTimeout_durationWord _, mresDuration_of_le deadline, rfl⟩

end Sys2Proof.Machine

/-! PROOFS. The comparators (`spec/41_classifier.md`). A word below `2 ^ 31` is its own duration, and one from there on a
Timeout (R70); so each output that answers a window is an `↔` over the word read as a number: `classify_eq_short_iff`,
`classify_eq_long_iff` and `preMatch_iff`. -/

namespace Sys2Proof.Machine

section
variable {cfg : Config} {r : MresWord}

/-- A result without the Timeout flag is its duration (R70). -/
theorem mresDuration_of_lt (h : r.toNat < 2 ^ 31) : mresDuration r = r.toNat := by
  rw [mresDuration, BitVec.extractLsb'_toNat, Nat.shiftRight_zero, Nat.mod_eq_of_lt h]

/-- Both bounds of a window are exclusive (R120). -/
theorem within_iff {lo hi d : Nat} : within lo hi d = true ↔ lo < d ∧ d < hi := by
  simp [within]

/-! ### The two kinds of result (R70) -/

/-- A Timeout is Invalid (R123). -/
theorem classify_of_timeout (h : 2 ^ 31 ≤ r.toNat) : classify cfg r = .invalid := by
  rw [classify, mresTimeout_eq, if_pos (decide_eq_true h)]

/-- A Timeout is no preamble (R121). -/
theorem preMatch_of_timeout (h : 2 ^ 31 ≤ r.toNat) : preMatch cfg r = false := by
  rw [preMatch, mresTimeout_eq, decide_eq_true h, Bool.not_true, Bool.false_and]

/-- A duration is Short in Short's window, else Long in Long's, else Invalid (R120). -/
theorem classify_of_duration (h : r.toNat < 2 ^ 31) :
    classify cfg r =
      if cfg.tShortLo < r.toNat ∧ r.toNat < cfg.tShortHi then .short
      else if cfg.tLongLo < r.toNat ∧ r.toNat < cfg.tLongHi then .long
      else .invalid := by
  simp only [classify, mresTimeout_eq, decide_eq_true_eq, Nat.not_le_of_lt h, if_false, mresDuration_of_lt h, within_iff]

/-- A duration is a preamble in the preamble's window (R121). -/
theorem preMatch_of_duration (h : r.toNat < 2 ^ 31) : preMatch cfg r = within cfg.tPreLo cfg.tPreHi r.toNat := by
  rw [preMatch, mresTimeout_eq, decide_eq_false (Nat.not_le_of_lt h), Bool.not_false, Bool.true_and, mresDuration_of_lt h]

/-! ### Each window, over every result word -/

theorem classify_eq_short_iff :
    classify cfg r = .short ↔ r.toNat < 2 ^ 31 ∧ cfg.tShortLo < r.toNat ∧ r.toNat < cfg.tShortHi := by
  rcases lt_or_ge r.toNat (2 ^ 31) with duration | timeout
  · rw [classify_of_duration duration, and_iff_right duration]
    split_ifs with short <;> simp [short]
  · simp only [classify_of_timeout timeout, timeout.not_gt, reduceCtorEq, false_and]

/-- Short is tested before Long (R125). -/
theorem classify_eq_long_iff :
    classify cfg r = .long ↔
      r.toNat < 2 ^ 31 ∧ classify cfg r ≠ .short ∧ cfg.tLongLo < r.toNat ∧ r.toNat < cfg.tLongHi := by
  rcases lt_or_ge r.toNat (2 ^ 31) with duration | timeout
  · rw [classify_of_duration duration, and_iff_right duration]
    split_ifs with short long
    · simp
    · simp [long]
    · simp [long]
  · simp only [classify_of_timeout timeout, timeout.not_gt, reduceCtorEq, false_and]

theorem preMatch_iff :
    preMatch cfg r = true ↔ r.toNat < 2 ^ 31 ∧ cfg.tPreLo < r.toNat ∧ r.toNat < cfg.tPreHi := by
  rcases lt_or_ge r.toNat (2 ^ 31) with duration | timeout
  · rw [preMatch_of_duration duration, within_iff, and_iff_right duration]
  · simp only [preMatch_of_timeout timeout, timeout.not_gt, Bool.false_eq_true, false_and]

/-- Every class but Short and Long is Invalid (R124). -/
theorem classify_eq_invalid_iff : classify cfg r = .invalid ↔ classify cfg r ≠ .short ∧ classify cfg r ≠ .long := by
  cases classify cfg r <;> decide

end

/-- Settles O7: each window's `↔`, at any thresholds and at those of R6, whose windows do not meet. -/
theorem comparatorWindows : Obligations.ComparatorWindows := by
  refine ⟨fun cfg r => ⟨fun timeout => ⟨classify_of_timeout timeout, preMatch_of_timeout timeout⟩,
    fun duration => ?_⟩, ?_⟩
  · exact ⟨classify_eq_short_iff.trans (and_iff_right duration), classify_eq_long_iff.trans (and_iff_right duration),
      preMatch_iff.trans (and_iff_right duration)⟩
  · intro pauseUs recBusMap continuous pinId r cfg
    have short : classify cfg r = .short ↔ 401 ≤ r.toNat ∧ r.toNat ≤ 599 := by
      rw [classify_eq_short_iff]; simp only [cfg]; omega
    have long : classify cfg r = .long ↔ 1401 ≤ r.toNat ∧ r.toNat ≤ 1799 := by
      rw [classify_eq_long_iff, ne_eq, short]; simp only [cfg]; omega
    have pre : preMatch cfg r = true ↔ 2901 ≤ r.toNat ∧ r.toNat ≤ 3229 := by
      rw [preMatch_iff]; simp only [cfg]; omega
    refine ⟨short, long, pre, fun preamble => ?_⟩
    rw [pre] at preamble
    rw [classify_eq_invalid_iff, ne_eq, ne_eq, short, long]
    omega

end Sys2Proof.Machine

/-! PROOFS. The frame state machine (`spec/42_frame_fsm.md`). The operations come first, then the steps that run them:
`step_seek` and `step_frame` say once what a measured step runs, and `exec_foldPair` what a second
symbol folds at each index. `AtSymbol` is the state at each symbol of a valid frame, so that the statements on whole
frames are an induction over the symbols. -/

namespace Sys2Proof

/-- The first symbol of a pair, whatever `EQ` is (R150). -/
theorem selectOp_even {f : SelFields} (valid : f.invalid = false) (even : f.odd = false) :
    selectOp 0b01 f = .frmEven f := by
  simp [selectOp, valid, even]

/-- The second symbol of an equal pair (R151). -/
theorem selectOp_viol {f : SelFields} (valid : f.invalid = false) (odd : f.odd = true) (equal : f.eq = true) :
    selectOp 0b01 f = .frmViol f := by
  simp [selectOp, valid, odd, equal]

end Sys2Proof

namespace Sys2Proof.Machine

/-! ### The operations -/

theorem acceptsSetup_eq_false {s : State} (h : s.st ≠ .idle ∨ s.setupErr ≠ .none) : acceptsSetup s ≠ true := by
  rw [Ne, acceptsSetup_iff, not_and_or]
  exact h

/-- START is refused where R77 does not accept it. -/
theorem exec_start_refused {s : State} (h : s.st ≠ .idle ∨ s.setupErr ≠ .none) :
    exec .start s = .refused (.commandNotAccepted 0b001) :=
  if_neg (acceptsSetup_eq_false h)

/-- Settles O18: START is accepted by R77, or refused. -/
theorem startBeginsListening : Obligations.StartBeginsListening := by
  refine fun s => ⟨fun idle fine => ?_, exec_start_refused⟩
  have accepted := (acceptsSetup_iff s).mpr ⟨idle, fine⟩
  exact ⟨_, if_pos accepted, rfl, rfl, mreqPause_encode _ _ _⟩

/-- Settles O19: a recorded failure is what R77 refuses. -/
theorem setupFailureIsRecorded : Obligations.SetupFailureIsRecorded := by
  refine fun s => ⟨fun idle fine => ?_, fun h => ⟨if_neg (acceptsSetup_eq_false h), if_neg (acceptsSetup_eq_false h)⟩⟩
  have accepted := (acceptsSetup_iff s).mpr ⟨idle, fine⟩
  have refused {e : SetupErr} (he : e ≠ .none) :
      exec .start (recordSetupFailure e s) = .refused (.commandNotAccepted 0b001) := exec_start_refused (.inr he)
  exact ⟨⟨_, if_pos accepted, rfl, rfl, idle, refused (by decide)⟩,
    ⟨_, if_pos accepted, rfl, rfl, idle, refused (by decide)⟩⟩

/-- Settles O21: both wait a tick, which is the clock and the script alone. -/
theorem waitingWritesNoRegister : Obligations.WaitingWritesNoRegister :=
  fun _ s => ⟨⟨waitTick s, rfl, rfl⟩, ⟨waitTick s, rfl, rfl⟩⟩

/-- Settles O22: the two operations written out. -/
theorem seekOperations : Obligations.SeekOperations :=
  fun _ _ => ⟨rfl, _, rfl, rfl, rfl, rfl, rfl, rfl, rfl, rfl, rfl⟩

/-- FrameAbort, field by field (R202). -/
theorem frameAbort_abortsWith (kind : RecKind) (cause : Cause) (s : State) :
    AbortsWith kind cause s (frameAbort kind cause s) := rfl

/-- Settles O23: each operation is FrameAbort, and bit 31 of the result tells the cause. -/
theorem frameAborts : Obligations.FrameAborts := by
  intro f s cause
  have told : invCause s.mres = cause := invCause_eq s.mres
  refine ⟨⟨_, rfl, ?_⟩, ⟨_, rfl, ?_⟩, ⟨_, rfl, frameAbort_abortsWith _ _ _⟩⟩ <;> rw [told]
  · exact frameAbort_abortsWith _ _ _
  · exact frameAbort_abortsWith _ _ _

/-- Settles O24: each operation advances, and its fold is arithmetic by `foldBit_toNat`. -/
theorem frameSymbols : Obligations.FrameSymbols := fun _ _ =>
  ⟨⟨_, rfl, ⟨rfl, rfl, rfl⟩, rfl, rfl, rfl, rfl⟩,
    ⟨_, rfl, ⟨rfl, rfl, rfl⟩, foldBit_toNat (by decide) _ _, rfl, rfl, rfl⟩,
    ⟨_, rfl, ⟨rfl, rfl, rfl⟩, rfl, rfl, rfl, rfl⟩,
    ⟨_, rfl, ⟨rfl, rfl, rfl⟩, rfl, rfl, rfl, rfl⟩,
    ⟨_, rfl, ⟨rfl, rfl, rfl⟩, rfl, rfl, rfl, foldBit_toNat (by decide) _ _⟩⟩

/-- Settles O25, by whether the configuration is continuous. -/
theorem frameCompletes : Obligations.FrameCompletes := by
  intro f s
  refine ⟨_, rfl, foldBit_toNat (by decide) _ _, rfl, rfl, rfl, rfl, rfl, rfl, fun continuous => ?_, fun single => ?_,
    rfl⟩
  · simp only [continuous, if_true, and_self]
  · simp only [single, Bool.false_eq_true, if_false, and_self]

/-! ### What a step runs (R140) -/

/-- A step that finds the reset input resets the block (R206). -/
theorem step_of_reset {s : State} {feed : Feed} (h : s.feed.take = some (.reset, feed)) :
    step s = exec .reset { s with feed := feed } := by
  simp only [step, h]

/-- In IDLE and HALT a step runs what the selector selects. -/
theorem step_of_waiting {s : State} (taken : s.feed.take = none) (mreq : s.mreq = none)
    (hs : s.st = .idle ∨ s.st = .halt) : step s = runSelected s := by
  rcases hs with hs | hs <;> simp only [step, taken, ownStep, mreq, hs]

/-- Settles O26, by what the step finds. -/
theorem stepRunsTheDecodedOperation : Obligations.StepRunsTheDecodedOperation := by
  refine fun s => ⟨fun _ => step_of_reset, fun c feed i taken decoded => ?_, fun w i taken mreq decoded => ?_,
    fun i taken mreq hs decoded => ?_, fun u i taken mreq hs measured decoded => ?_⟩
  · rw [step_of_command taken, commandStep, decoded]
  · rw [decode_mreq] at decoded
    cases decoded
    simp only [step, taken, ownStep, mreq]
  · rw [step_of_waiting taken mreq hs, runSelected, decoded]
  · rw [selWord, decodeSel_toWord, (duMeasure_same (.inl measured)).st] at decoded
    cases decoded
    exact step_of_duMeasure taken mreq hs measured

/-! ### The measured steps -/

section
variable {s u : State}

/-- The measurement changes no register (R105). -/
theorem measured_same (h : Measured s u) : SameRegisters s u := by
  obtain ⟨-, -, measured⟩ := h
  exact duMeasure_same (.inl measured)

/-- A SEEK step runs SEEK_MISS or SEEK_HIT. -/
theorem step_seek (h : Measured s u) (hs : s.st = .seek) :
    step s = exec (selectOp 0b00 (selFields u)) (stepDefaults u) := by
  obtain ⟨taken, mreq, measured⟩ := h
  rw [step_of_duMeasure taken mreq (.inl hs) measured, hs]

/-- A FRAME step runs an operation of FRAME. -/
theorem step_frame (h : Measured s u) (hs : s.st = .frame) :
    step s = exec (selectOp 0b01 (selFields u)) (stepDefaults u) := by
  obtain ⟨taken, mreq, measured⟩ := h
  rw [step_of_duMeasure taken mreq (.inr hs) measured, hs]

/-- A class that is valid clears `CLS[1]` (R72). -/
theorem selFields_valid (valid : classify u.cfg u.mres ≠ .invalid) : (selFields u).invalid = false := by
  simpa using valid

/-- `EQ` compares the symbol's bit with `prev` (R76, R122). -/
theorem selFields_eq_iff : (selFields u).eq = true ↔ (classify u.cfg u.mres = .long ↔ u.prev = true) := by
  rw [selFields_eq, beq_iff_eq, Bool.eq_iff_iff, decide_eq_true_iff]

/-- The second symbol of a pair, different from the first, selects a fold row. -/
theorem selFields_folds (valid : classify u.cfg u.mres ≠ .invalid) (odd : u.i.toNat % 2 = 1)
    (differs : ¬ (classify u.cfg u.mres = .long ↔ u.prev = true)) : (selFields u).folds = true := by
  refine (SelFields.folds_iff _).mpr ⟨selFields_valid valid, ?_, (odd_eq _).trans (decide_eq_true odd)⟩
  rwa [← Bool.not_eq_true, selFields_eq_iff]

end

/-- Settles O27: `PRE` tells SEEK_MISS from SEEK_HIT. -/
theorem seekStep : Obligations.SeekStep := by
  refine fun s u h hs => ⟨fun miss => ?_, fun hit => ?_⟩ <;> rw [step_seek h hs]
  · have op : selectOp 0b00 (selFields u) = .seekMiss (selFields u) := by simp [selectOp, miss]
    rw [op]; rfl
  · have op : selectOp 0b00 (selFields u) = .seekHit (selFields u) := by simp [selectOp, hit]
    rw [op]; rfl

/-- Settles O28: FRM_NODATA at index 0, FRM_ABORT elsewhere. -/
theorem invalidSymbolAborts : Obligations.InvalidSymbolAborts := by
  intro s u h hs invalid
  obtain ⟨nodata, abort, -⟩ := frameAborts (selFields u) (stepDefaults u)
  rw [step_frame h hs, selectOp_of_invalid (by simpa using invalid), selFields_idx, (measured_same h).i]
  split
  · exact nodata
  · exact abort

/-- Settles O29: FRM_VIOL, with the accumulators as they are. -/
theorem equalPairAborts : Obligations.EqualPairAborts := by
  intro s u h hs valid odd equal
  obtain ⟨-, -, viol⟩ := frameAborts (selFields u) (stepDefaults u)
  rw [← (measured_same h).i] at odd
  rw [← (measured_same h).prev] at equal
  rw [step_frame h hs, selectOp_viol (selFields_valid valid) ((odd_eq _).trans (decide_eq_true odd))
    (selFields_eq_iff.mpr equal)]
  exact viol

/-- Settles O30: FRM_EVEN. -/
theorem firstSymbolIsStored : Obligations.FirstSymbolIsStored := by
  intro s u h hs valid even
  rw [← (measured_same h).i] at even ⊢
  have notOdd : ¬ u.i.toNat % 2 = 1 := by omega
  rw [step_frame h hs, selectOp_even (selFields_valid valid) ((odd_eq _).trans (decide_eq_false notOdd)),
    ← symbolBit_selFields]
  rfl

/-! ### The fold of a pair -/

/-- The second symbol of an unequal pair, before the last: the bit of the first goes to the field of the index (R152 to
R155). -/
def foldPair (f : SelFields) (s : State) : State :=
  { advance f s with
    sender := if s.i.toNat ≤ 51 then foldBit s.sender s.prev else s.sender
    group := if s.i.toNat = 53 then s.prev else s.group
    onBit := if s.i.toNat = 55 then s.prev else s.onBit
    recipient := if 57 ≤ s.i.toNat then foldBit s.recipient s.prev else s.recipient }

section
variable {f : SelFields} {s : State}

theorem foldPair_sender (hi : s.i.toNat ≤ 51) :
    foldPair f s = { advance f s with sender := foldBit s.sender s.prev } := by
  rw [foldPair, if_pos hi, if_neg (by omega), if_neg (by omega), if_neg (by omega)]; rfl

theorem foldPair_group (hi : s.i.toNat = 53) : foldPair f s = { advance f s with group := s.prev } := by
  rw [foldPair, if_neg (by omega), if_pos hi, if_neg (by omega), if_neg (by omega)]; rfl

theorem foldPair_on (hi : s.i.toNat = 55) : foldPair f s = { advance f s with onBit := s.prev } := by
  rw [foldPair, if_neg (by omega), if_neg (by omega), if_pos hi, if_neg (by omega)]; rfl

theorem foldPair_recipient (hi : 57 ≤ s.i.toNat) :
    foldPair f s = { advance f s with recipient := foldBit s.recipient s.prev } := by
  rw [foldPair, if_neg (by omega), if_neg (by omega), if_neg (by omega), if_pos hi]; rfl

/-- The fold rows below index 63 fold the pair. -/
theorem exec_foldPair (folds : f.folds = true) (hf : f.idx = s.i) (hi : s.i.toNat < 63) :
    exec (selectOp 0b01 f) s = .next (foldPair f s) := by
  have odd := idx_odd_of_folds folds
  have index (k : BitVec 6) (hk : s.i.toNat = k.toNat) : f.idx = k := hf.trans (BitVec.eq_of_toNat_eq hk)
  rw [hf] at odd
  have field : s.i.toNat ≤ 51 ∨ s.i.toNat = 53 ∨ s.i.toNat = 55 ∨
      57 ≤ s.i.toNat ∧ (s.i.toNat = 57 ∨ s.i.toNat = 59 ∨ s.i.toNat = 61) := by omega
  rcases field with sender | group | on | ⟨recipient, h⟩
  · rw [foldPair_sender sender, selectOp_sender folds (hf ▸ sender)]; rfl
  · rw [foldPair_group group, selectOp_group folds (index 53 group)]; rfl
  · rw [foldPair_on on, selectOp_on folds (index 55 on)]; rfl
  · rw [foldPair_recipient recipient, selectOp_rcpt folds (h.imp (index 57) (.imp (index 59) (index 61)))]; rfl

end

/-- A FRAME step on the second symbol of an unequal pair folds the pair (R152 to R155). -/
theorem step_fold {s u : State} (h : Measured s u) (hs : s.st = .frame)
    (valid : classify u.cfg u.mres ≠ .invalid) (odd : s.i.toNat % 2 = 1) (hi : s.i.toNat < 63)
    (differs : ¬ (classify u.cfg u.mres = .long ↔ s.prev = true)) :
    step s = .next (foldPair (selFields u) (stepDefaults u)) := by
  rw [← (measured_same h).i] at odd hi
  rw [← (measured_same h).prev] at differs
  rw [step_frame h hs]
  exact exec_foldPair (s := stepDefaults u) (selFields_folds valid odd differs) rfl hi

/-- Settles O31: `foldPair`, with its folds as arithmetic. -/
theorem unequalPairFolds : Obligations.UnequalPairFolds := by
  intro s u h hs valid odd hi differs
  have same := measured_same h
  refine ⟨_, step_fold h hs valid odd hi differs, symbolBit_selFields u, ?_, ?_, ?_, ?_, ?_, rfl⟩
  · rw [← same.i] at hi ⊢
    exact index_succ hi
  · rw [← same.i, ← same.sender, ← same.prev, ← foldBit_toNat (by decide)]
    exact apply_ite BitVec.toNat _ _ _
  · rw [← same.i, ← same.group, ← same.prev]; rfl
  · rw [← same.i, ← same.onBit, ← same.prev]; rfl
  · rw [← same.i, ← same.recipient, ← same.prev, ← foldBit_toNat (by decide)]
    exact apply_ite BitVec.toNat _ _ _

/-- Settles O44: FRM_LAST, after the defaults. -/
theorem lastPairCompletesTheFrame : Obligations.LastPairCompletesTheFrame := by
  intro s u h hs valid hi differs
  have same := measured_same h
  rw [← same.i] at hi
  rw [← same.prev] at differs
  have op : selectOp 0b01 (selFields u) = .frmLast (selFields u) :=
    selectOp_last (selFields_folds valid (by omega) differs) (BitVec.eq_of_toNat_eq hi)
  obtain ⟨t, next, recipient, prev, index, completes⟩ := frameCompletes (selFields u) (stepDefaults u)
  rw [step_frame h hs, op, ← same.recipient, ← same.prev, ← same.sender, ← same.group, ← same.onBit, ← same.cfg]
  exact ⟨t, next, prev.trans (symbolBit_selFields u), index, recipient, completes⟩

/-! ### The end of a run (R250, R163) -/

/-- The reset leaves the reset values (R240). -/
theorem resetBlock_isReset (s : State) : IsReset s.cfg s.now s.feed (resetBlock s) := by
  simp [IsReset]

/-- Where a run has ended the block waits for the reset input alone. -/
theorem ended_cases {s : State} (h : s.ended = true) :
    (s.st = .idle ∨ s.st = .halt) ∧ (s.st ≠ .idle ∨ s.setupErr ≠ .none) := by
  have h : s.st = .halt ∨ s.st = .idle ∧ s.setupErr ≠ .none := by simpa [State.ended] using h
  rcases h with halt | ⟨idle, failed⟩
  · exact ⟨.inr halt, .inl (by simp [halt])⟩
  · exact ⟨.inl idle, .inr failed⟩

/-- A step that waits lets one tick pass (R141, R145). -/
theorem step_waits {s : State} (taken : s.feed.take = none) (mreq : s.mreq = none)
    (hs : s.st = .idle ∨ s.st = .halt) : step s = .next (waitTick s) := by
  rw [step_of_waiting taken mreq hs]
  exact hs.elim runSelected_idle runSelected_halt

/-- Settles O35, by what the step finds. -/
theorem endedRunWaitsForReset : Obligations.EndedRunWaitsForReset := by
  intro s ended
  obtain ⟨waits, refuses⟩ := ended_cases ended
  refine ⟨fun c feed taken => ?_, fun feed taken => ?_, fun taken mreq => ?_⟩
  · rw [step_of_command taken]
    exact ⟨_, commandStep_refusalByCode (command_ne_zero taken) (acceptsSetup_eq_false refuses)⟩
  · exact ⟨_, step_of_reset taken, resetBlock_isReset { s with feed := feed }⟩
  · exact ⟨_, step_waits taken mreq waits, rfl⟩

/-- FRM_LAST goes back to SEEK where the configuration is continuous (R163). -/
theorem frmLast_continues {f : SelFields} {s t : State} (continuous : s.cfg.continuous = true)
    (h : execFrmLast f s = .next t) : t.st = .seek := by
  cases h
  exact if_pos continuous

/-- Settles O36, by the case split over what a step does to the registers. -/
theorem continuousNeverHalts : Obligations.ContinuousNeverHalts := by
  intro s t continuous notHalt h
  cases step_effect h with
  | reset u _ h => rw [h, resetBlock_st]; decide
  | start feed _ _ h => simp [h]
  | setupFailure feed e idle _ _ h => rw [h, recordSetupFailure_st, idle]; decide
  | quiet same _ => rw [same.st]; exact notHalt
  | seek u hst same _ h =>
    obtain ⟨-, rfl⟩ | ⟨-, rfl⟩ := seek_cases h
    · rw [stepDefaults_st, same.st, hst]; decide
    · simp
  | frame u hst same _ h =>
    cases frame_outcome rfl h with
    | abort kind cause _ h => rw [h, frameAbort_st]; decide
    | symbol _ _ h => rw [h, stepDefaults_st, same.st, hst]; decide
    | complete _ h => rw [frmLast_continues (by rwa [stepDefaults_cfg, same.cfg]) h]; decide

/-! ### An abort resumes in SEEK (R159) -/

/-- A SEEK or FRAME step at stream level measures the next result of the script. -/
theorem measured_stream {s : State} {r : MresWord} {rest : List StreamItem} (mreq : s.mreq = none)
    (feed : s.feed = .stream (.result r :: rest)) : ∃ u, Measured s u ∧ u.mres = r ∧ u.feed = .stream rest := by
  obtain ⟨u, measured, mres, left, -⟩ := muMeasure_stream_result (lvl := .low) (pz := s.pausePending)
    (tmo := s.cfg.measureTimeoutUs) feed
  exact ⟨u, ⟨by rw [feed]; rfl, mreq, by rw [duMeasure_eq, measured]⟩, mres, left⟩

/-- A SEEK step at stream level leaves the record, and enters FRAME at a preamble (R146, R147). -/
theorem step_seek_stream {s : State} {r : MresWord} {rest : List StreamItem} (hs : s.st = .seek) (mreq : s.mreq = none)
    (feed : s.feed = .stream (.result r :: rest)) :
    ∃ t, step s = .next t ∧ t.feed = .stream rest ∧ t.pausePending = false ∧ t.recValid = false ∧
      t.recWord = s.recWord ∧ t.st = if preMatch s.cfg r then .frame else .seek := by
  obtain ⟨u, h, rfl, left⟩ := measured_stream mreq feed
  have same := measured_same h
  obtain ⟨miss, hit⟩ := seekStep s u h hs
  rw [← same.cfg]
  cases pre : preMatch u.cfg u.mres with
  | false => exact ⟨_, miss pre, left, rfl, rfl, same.recWord, same.st.trans hs⟩
  | true => exact ⟨_, hit pre, left, rfl, rfl, same.recWord, rfl⟩

/-- Settles O42: either abort leaves SEEK with the pause pending, and the next step measures the next result. -/
theorem abortResumesInSeek : Obligations.AbortResumesInSeek := by
  intro s r r' rest hs mreq feed cause
  obtain ⟨u, h, rfl, left⟩ := measured_stream mreq feed
  have same := measured_same h
  have aborts : ∃ t kind cause, step s = .next t ∧ AbortsWith kind cause u t := by
    rw [← same.cfg] at cause
    rcases cause with invalid | ⟨odd, valid, equal⟩
    · obtain ⟨t, next, aborts⟩ := invalidSymbolAborts s u h hs invalid
      exact ⟨t, _, _, next, aborts⟩
    · obtain ⟨t, next, aborts⟩ := equalPairAborts s u h hs valid odd equal
      exact ⟨t, _, _, next, aborts⟩
  obtain ⟨_, kind, cause, next, rfl⟩ := aborts
  rw [← same.cfg]
  exact ⟨_, next, rfl, left, mreqPause_encode _ _ _, step_seek_stream rfl (same.mreq.trans mreq) left⟩

/-! ### The bits of a frame, first bit most significant (R158, R182) -/

/-- The `n` low bits of a word are the first `n` of a sequence of bits, first bit most significant. -/
def HoldsBits {w : Nat} (acc : BitVec w) (n : Nat) (bit : Nat → Bool) : Prop :=
  ∀ p, p < n → acc.getLsbD (n - 1 - p) = bit p

/-- The folded bit comes in at the low end. -/
theorem getLsbD_foldBit_zero {w : Nat} (hw : 0 < w) (acc : BitVec w) (b : Bool) : (foldBit acc b).getLsbD 0 = b := by
  simp [foldBit, hw]

/-- The bits folded before move up. -/
theorem getLsbD_foldBit_succ {w k : Nat} (hk : k + 1 < w) (acc : BitVec w) (b : Bool) :
    (foldBit acc b).getLsbD (k + 1) = acc.getLsbD k := by
  simp [foldBit, hk, BitVec.getLsbD_eq_getElem (show k < w by omega)]

/-- A fold holds one bit more. -/
theorem HoldsBits.fold {w n : Nat} {acc : BitVec w} {bit : Nat → Bool} (h : HoldsBits acc n bit) (hn : n < w) :
    HoldsBits (foldBit acc (bit n)) (n + 1) bit := by
  intro p hp
  rcases Nat.lt_succ_iff_lt_or_eq.mp hp with lt | rfl
  · rw [show n + 1 - 1 - p = n - 1 - p + 1 by omega, getLsbD_foldBit_succ (by omega), h p lt]
  · rw [show p + 1 - 1 - p = 0 by omega, getLsbD_foldBit_zero (by omega)]

/-- A packed record holds the bits of its fields, one field after the other (R182). -/
theorem packWord_holdsBits {sender : BitVec 26} {group onBit : Bool} {recipient : BitVec 4} {bit : Nat → Bool}
    (hs : HoldsBits sender 26 bit) (hg : group = bit 26) (ho : onBit = bit 27)
    (hr : HoldsBits recipient 4 fun p => bit (28 + p)) :
    HoldsBits (packWord sender group onBit recipient) 32 bit := by
  obtain ⟨fs, fg, fo, fr⟩ := packWord_fields sender group onBit recipient
  intro p hp
  have field : p < 26 ∨ p = 26 ∨ p = 27 ∨ 28 ≤ p := by omega
  rcases field with lt | rfl | rfl | ge
  · have held := hs p lt
    rw [← fs, BitVec.getLsbD_extractLsb', decide_eq_true (by omega), Bool.true_and] at held
    rw [show 32 - 1 - p = 6 + (26 - 1 - p) by omega]
    exact held
  · exact fg.trans hg
  · exact fo.trans ho
  · obtain ⟨q, rfl⟩ := Nat.exists_eq_add_of_le ge
    have held := hr q (by omega)
    rw [← fr, BitVec.getLsbD_extractLsb', decide_eq_true (by omega), Bool.true_and] at held
    rw [show 32 - 1 - (28 + q) = 0 + (4 - 1 - q) by omega]
    exact held

/-- The accumulators after `n` pairs, whose first symbols have the bits `bit` (R158). -/
structure Folded (bit : Nat → Bool) (n : Nat) (s : State) : Prop where
  sender : HoldsBits s.sender (min n 26) bit
  group : s.group = (decide (26 < n) && bit 26)
  onBit : s.onBit = (decide (27 < n) && bit 27)
  recipient : HoldsBits s.recipient (n - 28) fun p => bit (28 + p)
  within : FoldsWithin n s

/-- Nothing is folded yet where the accumulators are 0. -/
theorem Folded.zero {bit : Nat → Bool} {s : State} (hs : s.sender = 0) (hg : s.group = false) (ho : s.onBit = false)
    (hr : s.recipient = 0) : Folded bit 0 s :=
  ⟨fun p hp => absurd hp (by omega), by simp [hg], by simp [ho], fun p hp => absurd hp (by omega),
    ⟨by simp [hs], by simp [hg], by simp [ho], by simp [hr]⟩⟩

/-- Only the accumulators count. -/
theorem Folded.congr {bit : Nat → Bool} {n : Nat} {s t : State} (h : Folded bit n s) (hs : t.sender = s.sender)
    (hg : t.group = s.group) (ho : t.onBit = s.onBit) (hr : t.recipient = s.recipient) : Folded bit n t := by
  obtain ⟨sender, group, onBit, recipient, within⟩ := h
  obtain ⟨senderLt, groupLt, onLt, recipientLt⟩ := within
  rw [← hs] at sender senderLt
  rw [← hg] at group groupLt
  rw [← ho] at onBit onLt
  rw [← hr] at recipient recipientLt
  exact ⟨sender, group, onBit, recipient, senderLt, groupLt, onLt, recipientLt⟩

/-- The second symbol of pair `n` folds its bit. -/
theorem Folded.foldPair {bit : Nat → Bool} {n : Nat} {s : State} (h : Folded bit n s) (hi : s.i.toNat = 2 * n + 1)
    (hn : n < 31) (hp : s.prev = bit n) (f : SelFields) : Folded bit (n + 1) (foldPair f s) := by
  obtain ⟨sender, group, onBit, recipient, within⟩ := h
  have field : n < 26 ∨ n = 26 ∨ n = 27 ∨ 28 ≤ n := by omega
  rcases field with lt | rfl | rfl | ge
  · rw [foldPair_sender (by omega)]
    refine ⟨?_, ?_, ?_, ?_, foldsWithin_sender f within lt⟩
    · rw [min_eq_left (by omega)] at sender ⊢
      exact hp ▸ sender.fold lt
    · simpa [show ¬ 26 < n by omega, show ¬ 26 < n + 1 by omega] using group
    · simpa [show ¬ 27 < n by omega, show ¬ 27 < n + 1 by omega] using onBit
    · simpa [show n - 28 = 0 by omega, show n + 1 - 28 = 0 by omega] using recipient
  · rw [foldPair_group (by omega)]
    exact ⟨sender, by simpa using hp, onBit, recipient, foldsWithin_group f within le_rfl⟩
  · rw [foldPair_on (by omega)]
    exact ⟨sender, group, by simpa using hp, recipient, foldsWithin_on f within le_rfl⟩
  · rw [foldPair_recipient (by omega)]
    refine ⟨?_, ?_, ?_, ?_, foldsWithin_recipient f within ge⟩
    · rw [min_eq_right (by omega)] at sender ⊢
      exact sender
    · simpa [show 26 < n by omega, show 26 < n + 1 by omega] using group
    · simpa [show 27 < n by omega, show 27 < n + 1 by omega] using onBit
    · have next : s.prev = bit (28 + (n - 28)) := by rw [Nat.add_sub_cancel' ge, hp]
      rw [Nat.sub_add_comm ge, next]
      exact recipient.fold (by omega)

/-! ### The run through a frame -/

/-- The block in FRAME before symbol `k` of the frame `rs`, with `rest` behind the frame. -/
structure AtSymbol (cfg : Config) (rs : List MresWord) (rest : List StreamItem) (k : Nat) (s : State) : Prop where
  config : s.cfg = cfg
  st : s.st = .frame
  mreq : s.mreq = none
  recValid : s.recValid = false
  i : s.i.toNat = k
  feed : s.feed = .stream ((rs.drop k).map .result ++ rest)
  prev : 0 < k → s.prev = symbolAt cfg rs (k - 1)
  folded : Folded (fun p => symbolAt cfg rs (2 * p)) (k / 2) s

section
variable {cfg : Config} {rs : List MresWord} {rest : List StreamItem} {k : Nat} {s : State}

/-- The step at symbol `k` measures it. -/
theorem AtSymbol.measured (h : AtSymbol cfg rs rest k s) (hk : k < rs.length) :
    ∃ u, Measured s u ∧ u.cfg = cfg ∧ u.mres = rs.getD k 0 ∧
      u.feed = .stream ((rs.drop (k + 1)).map .result ++ rest) := by
  have feed : s.feed = .stream (.result (rs.getD k 0) :: ((rs.drop (k + 1)).map .result ++ rest)) := by
    rw [h.feed, List.drop_eq_getElem_cons hk, List.getD_eq_getElem _ _ hk]; rfl
  obtain ⟨u, measured, mres, left⟩ := measured_stream h.mreq feed
  exact ⟨u, measured, (measured_same measured).cfg.trans h.config, mres, left⟩

/-- Every symbol of a valid frame is valid. -/
theorem valid_symbol (valid : ValidSymbols cfg rs) (hk : k < rs.length) : classify cfg (rs.getD k 0) ≠ .invalid := by
  obtain ⟨each, -⟩ := valid
  rw [List.getD_eq_getElem _ _ hk]
  exact each _ (List.getElem_mem hk)

/-- Two valid classes that differ have different bits (R122). -/
theorem bits_differ {a b : SymClass} (ha : a ≠ .invalid) (hb : b ≠ .invalid) (hab : a ≠ b) :
    ¬ (b = .long ↔ a = .long) := by
  intro same
  cases a with
  | invalid => exact ha rfl
  | long => exact hab (same.mpr rfl).symm
  | short =>
    cases b with
    | invalid => exact hb rfl
    | short => exact hab rfl
    | long => exact SymClass.noConfusion (same.mp rfl)

/-- The second symbol of a pair differs from the bit held of the first. -/
theorem AtSymbol.pair_differs (h : AtSymbol cfg rs rest k s) (valid : ValidSymbols cfg rs) (hk : k < rs.length)
    (odd : k % 2 = 1) : ¬ (classify cfg (rs.getD k 0) = .long ↔ s.prev = true) := by
  obtain ⟨n, rfl⟩ : ∃ n, k = 2 * n + 1 := ⟨k / 2, by omega⟩
  have ⟨_, pairs⟩ := valid
  rw [h.prev (by omega), symbolAt, decide_eq_true_iff]
  exact bits_differ (valid_symbol valid (by omega)) (valid_symbol valid hk) (pairs n hk)

/-- Each symbol of a valid frame but the last takes the block to the next one, without a record (R150 to R155). -/
theorem AtSymbol.step (h : AtSymbol cfg rs rest k s) (valid : ValidSymbols cfg rs) (hk : k < rs.length)
    (h63 : k < 63) : ∃ t, Machine.step s = .next t ∧ AtSymbol cfg rs rest (k + 1) t := by
  obtain ⟨u, measured, hcfg, mres, left⟩ := h.measured hk
  have same := measured_same measured
  have index : (u.i + 1).toNat = k + 1 := by rw [index_succ (by rw [same.i, h.i]; exact h63), same.i, h.i]
  have bit : decide (classify u.cfg u.mres = .long) = symbolAt cfg rs k := by rw [hcfg, mres]; rfl
  have isValid : classify u.cfg u.mres ≠ .invalid := by rw [hcfg, mres]; exact valid_symbol valid hk
  have folded : Folded (fun p => symbolAt cfg rs (2 * p)) (k / 2) (stepDefaults u) :=
    h.folded.congr same.sender same.group same.onBit same.recipient
  rcases Nat.mod_two_eq_zero_or_one k with even | odd
  · refine ⟨_, firstSymbolIsStored s u measured h.st isValid (h.i.symm ▸ even), hcfg, same.st.trans h.st,
      same.mreq.trans h.mreq, rfl, same.i ▸ index, left, fun _ => bit, ?_⟩
    rw [show (k + 1) / 2 = k / 2 by omega]
    exact folded.congr rfl rfl rfl rfl
  · have differs := h.pair_differs valid hk odd
    rw [← hcfg, ← mres] at differs
    have first : u.prev = symbolAt cfg rs (2 * (k / 2)) := by
      rw [same.prev, h.prev (by omega), show k - 1 = 2 * (k / 2) by omega]
    refine ⟨_, step_fold measured h.st isValid (h.i.symm ▸ odd) (h.i.symm ▸ h63) differs, hcfg, same.st.trans h.st,
      same.mreq.trans h.mreq, rfl, index, left, fun _ => (symbolBit_selFields u).trans bit, ?_⟩
    rw [show (k + 1) / 2 = k / 2 + 1 by omega]
    exact folded.foldPair (by rw [stepDefaults_i, same.i, h.i]; omega) (by omega) first _

/-- The preamble takes SEEK to the first symbol (R147). -/
theorem atSymbol_of_preamble {pre : MresWord} (hs : s.st = .seek) (mreq : s.mreq = none)
    (hit : preMatch s.cfg pre = true) (feed : s.feed = .stream ((pre :: rs).map .result ++ rest)) :
    ∃ t, Machine.step s = .next t ∧ AtSymbol s.cfg rs rest 0 t := by
  obtain ⟨u, measured, rfl, left⟩ := measured_stream mreq feed
  have same := measured_same measured
  obtain ⟨-, enter⟩ := seekStep s u measured hs
  rw [← same.cfg] at hit ⊢
  exact ⟨_, enter hit, rfl, rfl, same.mreq.trans mreq, rfl, rfl, left, fun h => absurd h (Nat.lt_irrefl 0),
    .zero rfl rfl rfl rfl⟩

/-- A preamble and `k` symbols of a valid frame take SEEK to symbol `k`. -/
theorem run_atSymbol {pre : MresWord} (hs : s.st = .seek) (mreq : s.mreq = none) (hit : preMatch s.cfg pre = true)
    (valid : ValidSymbols s.cfg rs) (feed : s.feed = .stream ((pre :: rs).map .result ++ rest)) :
    ∀ k, k ≤ rs.length → k ≤ 63 → ∃ t, core.run (k + 1) s = .next t ∧ AtSymbol s.cfg rs rest k t
  | 0, _, _ => by
    obtain ⟨t, next, at0⟩ := atSymbol_of_preamble hs mreq hit feed
    exact ⟨t, run_of_step core 0 next, at0⟩
  | k + 1, hk, h63 => by
    obtain ⟨t, run, atK⟩ := run_atSymbol hs mreq hit valid feed k (by omega) (by omega)
    obtain ⟨v, next, atNext⟩ := atK.step valid hk h63
    exact ⟨v, (run_add core 1 (k + 1) run).trans (run_of_step core 0 next), atNext⟩

/-- The step at symbol 63 emits the complete record, which holds the bits of the frame (R156, R182). -/
theorem AtSymbol.completes (h : AtSymbol cfg rs rest 63 s) (valid : ValidSymbols cfg rs) (len : rs.length = 64) :
    ∃ t, Machine.step s = .next t ∧ t.recValid = true ∧ t.recKind = .complete ∧ t.recCause = .none ∧
      HoldsBits t.recWord 32 (fun p => symbolAt cfg rs (2 * p)) ∧ t.recWord = t.pack ∧ t.i = 0 ∧
      t.feed = .stream rest ∧ (cfg.continuous = false → t.st = .halt ∧ t.pausePending = false) ∧
      (cfg.continuous = true → t.st = .seek ∧ t.pausePending = true) := by
  obtain ⟨u, measured, hcfg, mres, left⟩ := h.measured (by omega)
  have same := measured_same measured
  have isValid : classify u.cfg u.mres ≠ .invalid := by rw [hcfg, mres]; exact valid_symbol valid (by omega)
  have differs := h.pair_differs valid (by omega) rfl
  rw [← hcfg, ← mres] at differs
  obtain ⟨t, next, -, i, recipient, kind, cause, recValid, word, continuous, single, frame⟩ :=
    lastPairCompletesTheFrame s u measured h.st isValid h.i differs
  obtain ⟨sender, group, onBit, held, -⟩ := h.folded
  have fold : t.recipient = foldBit s.recipient (symbolAt cfg rs (2 * (28 + 3))) := by
    apply BitVec.eq_of_toNat_eq
    rw [foldBit_toNat (by decide), recipient, h.prev (by decide)]
  have bits : HoldsBits t.recWord 32 fun p => symbolAt cfg rs (2 * p) := by
    rw [word, fold]
    exact packWord_holdsBits sender group onBit (held.fold (by decide))
  have pack : t.recWord = t.pack := by
    rw [word, frame, ← same.sender, ← same.group, ← same.onBit]; rfl
  rw [List.drop_eq_nil_of_le (by omega)] at left
  rw [h.config] at continuous single
  exact ⟨t, next, recValid, kind, cause, bits, pack, i, by rw [frame]; exact left, single, continuous⟩

end

/-- Settles O40: the state at symbol `2 n`. -/
theorem accumulatorsHoldFoldedPairs : Obligations.AccumulatorsHoldFoldedPairs := by
  intro s pre rs rest n hn len hs mreq hit valid feed
  obtain ⟨t, run, reached⟩ := run_atSymbol hs mreq hit valid feed (2 * n) (by omega) (by omega)
  have left := reached.feed
  have folded := reached.folded
  rw [List.drop_eq_nil_of_le len.le] at left
  rw [Nat.mul_div_cancel_left n (by decide)] at folded
  refine ⟨t, run, reached.st, reached.i, left, folded.sender, folded.within.sender, folded.group, folded.onBit,
    fun p ge lt => ?_, folded.within.recipient, fun pos => reached.prev (by omega)⟩
  obtain ⟨q, rfl⟩ := Nat.exists_eq_add_of_le ge
  rw [show n - 1 - (28 + q) = n - 28 - 1 - q by omega]
  exact folded.recipient q (by omega)

/-- Settles O41: the state at symbol 63, and the step that completes the frame. -/
theorem validFrameDecodes : Obligations.ValidFrameDecodes := by
  intro s pre rs rest len hs mreq hit valid feed
  have reach := run_atSymbol hs mreq hit valid feed
  refine ⟨fun k pos lt => ?_, ?_⟩
  · obtain ⟨v, run, atK⟩ := reach (k - 1) (by omega) (by omega)
    rw [Nat.sub_add_cancel pos] at run
    exact ⟨v, run, atK.recValid⟩
  · obtain ⟨v, run, atLast⟩ := reach 63 (by omega) le_rfl
    obtain ⟨t, next, completes⟩ := atLast.completes valid len
    exact ⟨t, (run_add core 1 64 run).trans (run_of_step core 0 next), completes⟩

end Sys2Proof.Machine

/-! PROOFS. The reset at the tick of a command (`spec/60_exceptions.md` R206, `spec/70_reset_and_hazards.md` R240).
Commands before a reset input of the same tick do not hide it: `pinReset_split` finds the first host input of the tick,
which stops every walk with the reset, and `muMeasure_meetsInput` takes a measurement there. -/

namespace Sys2Proof.Machine

/-- A reset input behind items of its own tick stands at that tick (R206). -/
theorem pinReset_sameTick {same : List PinItem} (after : List PinItem) (ticks : holdTicks same = 0)
    (first : .reset ∉ same) : pinReset (same ++ .reset :: after) = some after := by
  rw [pinReset_append _ ticks first]; rfl

/-- Items of no ticks behind the waveform leave the measurement in progress. -/
theorem stillMeasuring_append {lvl tail : Level} {k timeout : Nat} {before pre : List PinItem}
    (h : StillMeasuring lvl k timeout before tail) (free : eventFree pre = true) (ticks : holdTicks pre = 0) :
    StillMeasuring lvl k timeout (before ++ pre) tail := by
  obtain ⟨beforeFree, deadline, running⟩ := h
  have length : holdTicks (before ++ pre) = holdTicks before := by rw [holdTicks_append, ticks, Nat.add_zero]
  refine ⟨eventFree_append.mpr ⟨beforeFree, free⟩, length ▸ deadline, fun t1 t2 h1 h12 h2 => ?_⟩
  rw [length] at h2
  rw [levelAt_append (h12.trans_lt h2), levelAt_append h2]
  exact running t1 t2 h1 h12 h2

/-- A measurement that meets a host input with the reset at its tick is abandoned there, for the reset to clear the
block (R206, R240). -/
theorem MuEnd.MeetsInput.abandoned {e : PinItem} {rest after : List PinItem} {tail : Level} {s : State} {n : Nat}
    {r : MuEnd} (h : r.MeetsInput e rest tail s n) (stop : ∀ m, Walk.stoppedBy m rest e = .reset m after) :
    ∃ u, r = .abandoned u ∧ IsReset s.cfg (s.now + BitVec.ofNat 64 n) (.pin after tail) (resetBlock u) := by
  obtain ⟨v, m, goOn, rfl, cfg, now⟩ := h
  rw [stop, ← cfg, ← now]
  exact ⟨_, rfl, resetBlock_isReset (v.pass m (.pin after tail))⟩

/-- A reset input at one tick of a measurement or its pause abandons it at that tick, whatever commands stand before it
at the tick (R206, R240). -/
theorem muMeasure_abandoned {lvl tail : Level} {pz : Bool} {tmo : BitVec 30} {s : State}
    {before now after : List PinItem} (reset : pinReset now = some after) (feed : s.feed = .pin (before ++ now) tail)
    (h : StillMeasuring lvl (pauseTicks pz s) tmo.toNat before tail) :
    ∃ u, muMeasure lvl pz tmo s = .abandoned u ∧
      IsReset s.cfg (s.now + BitVec.ofNat 64 (holdTicks before)) (.pin after tail) (resetBlock u) := by
  obtain ⟨pre, e, left, rfl, free, ticks, event, stop⟩ := pinReset_split reset
  rw [← List.append_assoc] at feed
  have meets := muMeasure_meetsInput event feed (stillMeasuring_append h free ticks)
  rw [holdTicks_append, ticks, Nat.add_zero] at meets
  exact meets.abandoned stop

/-- MEASURE resets the block where its measurement is abandoned (R240). -/
theorem exec_measure_abandoned {lvl : Level} {pz : Bool} {tmo : BitVec 30} {s u : State}
    (h : muMeasure lvl pz tmo s = .abandoned u) : exec (.measure lvl pz tmo) s = .next (resetBlock u) := by
  simp only [exec, execMeasure, h]

/-- A SEEK or FRAME step resets the block where its measurement is abandoned (R206, R240). -/
theorem step_abandoned {s u : State} (taken : s.feed.take = none) (mreq : s.mreq = none)
    (hs : s.st = .seek ∨ s.st = .frame)
    (h : muMeasure .low s.pausePending s.cfg.measureTimeoutUs s = .abandoned u) :
    step s = .next (resetBlock u) := by
  have measured : measuredStep s = .next (resetBlock u) := by
    simp only [measuredStep, duMeasure_eq, h]; rfl
  rcases hs with hs | hs <;> simp only [step, taken, ownStep, mreq, hs, measured]

/-- A step that finds the reset input at its start resets the block at that tick (R206). -/
theorem step_resets {s : State} {items after : List PinItem} {tail : Level} (feed : s.feed = .pin items tail)
    (reset : takePin items = some (.reset, after)) :
    ∃ t, step s = .next t ∧ IsReset s.cfg s.now (.pin after tail) t := by
  have taken : s.feed.take = some (.reset, .pin after tail) := by rw [feed, Feed.take, reset]; rfl
  exact ⟨_, step_of_reset taken, resetBlock_isReset { s with feed := .pin after tail }⟩

/-- Settles O45: the step finds the reset at its start, or its measurement is abandoned there. -/
theorem resetOverridesCommands : Obligations.ResetOverridesCommands := by
  intro same after tail ticks first
  have reset : pinReset (same ++ .reset :: after) = some after := pinReset_sameTick after ticks first
  refine ⟨fun s feed => step_resets feed (takePin_reset reset), fun lvl pz tmo s before feed h => ?_,
    fun s before feed mreq hs h => ?_⟩
  · obtain ⟨u, abandoned, isReset⟩ := muMeasure_abandoned reset feed h
    exact ⟨_, exec_measure_abandoned abandoned, isReset⟩
  have ⟨free, _⟩ := h
  have found := takePin_append (same ++ .reset :: after) free
  by_cases start : holdTicks before = 0
  · rw [if_pos start, takePin_reset reset] at found
    rw [start, BitVec.add_zero]
    exact step_resets feed found
  · rw [if_neg start] at found
    have taken : s.feed.take = none := by rw [feed, Feed.take, found]; rfl
    obtain ⟨u, abandoned, isReset⟩ := muMeasure_abandoned reset feed h
    exact ⟨_, step_abandoned taken mreq hs abandoned, isReset⟩

end Sys2Proof.Machine

/-! PROOFS. The reset input by itself (`spec/70_reset_and_hazards.md` R240): RESET, a step that finds the reset input,
and a step whose measurement it abandons, which is R206 with no command at the reset's tick. -/

namespace Sys2Proof.Machine

/-- A measurement of the low level is in progress as long as no low level has been followed by a high one (R100). -/
theorem stillMeasuring_low {k timeout : Nat} {before : List PinItem} {tail : Level} (free : eventFree before = true)
    (deadline : holdTicks before ≤ k + timeout)
    (running : ∀ t1 t2, k ≤ t1 → t1 ≤ t2 → t2 < holdTicks before →
      ¬ (levelAt tail before t1 = .low ∧ levelAt tail before t2 = .high)) :
    StillMeasuring .low k timeout before tail :=
  ⟨free, deadline, fun t1 t2 h1 h12 h2 ⟨low, notLow⟩ => running t1 t2 h1 h12 h2 ⟨low, eq_otherLevel_iff.mpr notLow⟩⟩

/-- Settles O16: RESET leaves the reset values, a step that finds the reset input is RESET, and one that comes inside a
measurement is a reset with no command at its tick. -/
theorem resetInAnyStateAtAnyTick : Obligations.ResetInAnyStateAtAnyTick := by
  refine ⟨fun s => ⟨_, rfl, resetBlock_isReset s⟩, fun s feed taken => ?_,
    fun s before after tail feed free mreq hs deadline running => ?_⟩
  · exact ⟨_, step_of_reset taken, resetBlock_isReset { s with feed := feed }⟩
  · obtain ⟨-, -, inMeasurement⟩ := resetOverridesCommands [] after tail rfl List.not_mem_nil
    exact inMeasurement s before feed mreq hs (stillMeasuring_low free deadline running)

end Sys2Proof.Machine
